-- ==== Sys2Proof/Word.lean ====
section
/-! DEFINITION. The words the spec speaks of (00_scope.md R4, R5; 30_encoding.md R51): bytes, 16-bit words, 12-bit addresses,
4-bit counts and register indices. -/

namespace Sys2Proof

/-- A byte: a general register, a memory cell, an immediate `kk` (10_state.md R10, 20_memory.md R30). -/
abbrev Byte := BitVec 8

/-- A 16-bit word: an instruction word, `pc`, `I`, a stack entry (10_state.md R13, R14, R16; 30_encoding.md R50). -/
abbrev Word := BitVec 16

/-- A 12-bit address operand `nnn` (30_encoding.md R51). -/
abbrev Addr := BitVec 12

/-- A 4-bit count `n` (30_encoding.md R51). -/
abbrev Nibble := BitVec 4

/-- A register index: every 4-bit field value names a register (10_state.md R10). -/
abbrev Reg := Fin 16

end Sys2Proof
end

