-- ==== Sys2Proof/Syntax.lean ====
section
/-! DEFINITION. The instruction set: one constructor per row of the opcode table (30_encoding.md R55), carrying the operand
fields "pre-extracted" (R52). `x` and `y` are register indices, `kk` an 8-bit immediate, `nnn` a 12-bit address, `n` a
4-bit count. -/

namespace Sys2Proof

/-- The 35 instruction forms, in the order of 30_encoding.md R55. -/
inductive Instr where
  /-- `SYS nnn`, 0nnn (R80) -/
  | sys (nnn : Addr)
  /-- `CLS`, 00E0 (R115) -/
  | cls
  /-- `RET`, 00EE (R81) -/
  | ret
  /-- `JP nnn`, 1nnn (R82) -/
  | jp (nnn : Addr)
  /-- `CALL nnn`, 2nnn (R83) -/
  | call (nnn : Addr)
  /-- `SE Vx, kk`, 3xkk (R84) -/
  | seImm (x : Reg) (kk : Byte)
  /-- `SNE Vx, kk`, 4xkk (R85) -/
  | sneImm (x : Reg) (kk : Byte)
  /-- `SE Vx, Vy`, 5xy0 (R86) -/
  | seReg (x y : Reg)
  /-- `LD Vx, kk`, 6xkk (R91) -/
  | ldImm (x : Reg) (kk : Byte)
  /-- `ADD Vx, kk`, 7xkk (R92) -/
  | addImm (x : Reg) (kk : Byte)
  /-- `LD Vx, Vy`, 8xy0 (R93) -/
  | ldReg (x y : Reg)
  /-- `OR Vx, Vy`, 8xy1 (R94) -/
  | or (x y : Reg)
  /-- `AND Vx, Vy`, 8xy2 (R95) -/
  | and (x y : Reg)
  /-- `XOR Vx, Vy`, 8xy3 (R96) -/
  | xor (x y : Reg)
  /-- `ADD Vx, Vy`, 8xy4 (R97) -/
  | addReg (x y : Reg)
  /-- `SUB Vx, Vy`, 8xy5 (R98) -/
  | sub (x y : Reg)
  /-- `SHR Vx, Vy`, 8xy6 (R99) -/
  | shr (x y : Reg)
  /-- `SUBN Vx, Vy`, 8xy7 (R100) -/
  | subn (x y : Reg)
  /-- `SHL Vx, Vy`, 8xyE (R101) -/
  | shl (x y : Reg)
  /-- `SNE Vx, Vy`, 9xy0 (R87) -/
  | sneReg (x y : Reg)
  /-- `LD I, nnn`, Annn (R105) -/
  | ldI (nnn : Addr)
  /-- `JP V0, nnn`, Bnnn (R88) -/
  | jpV0 (nnn : Addr)
  /-- `RND Vx, kk`, Cxkk (R102) -/
  | rnd (x : Reg) (kk : Byte)
  /-- `DRW Vx, Vy, n`, Dxyn (R116) -/
  | drw (x y : Reg) (n : Nibble)
  /-- `SKP Vx`, Ex9E (R120) -/
  | skp (x : Reg)
  /-- `SKNP Vx`, ExA1 (R121) -/
  | sknp (x : Reg)
  /-- `LD Vx, DT`, Fx07 (R123) -/
  | ldVxDT (x : Reg)
  /-- `LD Vx, K`, Fx0A (R122) -/
  | ldVxK (x : Reg)
  /-- `LD DT, Vx`, Fx15 (R124) -/
  | ldDTVx (x : Reg)
  /-- `LD ST, Vx`, Fx18 (R125) -/
  | ldSTVx (x : Reg)
  /-- `ADD I, Vx`, Fx1E (R106) -/
  | addI (x : Reg)
  /-- `LD F, Vx`, Fx29 (R107) -/
  | ldF (x : Reg)
  /-- `LD B, Vx`, Fx33 (R108) -/
  | ldB (x : Reg)
  /-- `LD [I], Vx`, Fx55 (R109) -/
  | ldMemVx (x : Reg)
  /-- `LD Vx, [I]`, Fx65 (R110) -/
  | ldVxMem (x : Reg)
  deriving DecidableEq, Repr

end Sys2Proof
end

