-- ==== Sys2Proof/WellFormed.lean ====
section
/-! DEFINITION. Which instruction terms are instructions. The operand types bound every register index, immediate, address and
count (10_state.md R10, 30_encoding.md R51), so one check is left: the words 0x00E0 and 0x00EE are CLS and RET and never SYS
(30_encoding.md R54, R57). -/

namespace Sys2Proof

/-- `SYS nnn` does not carry the addresses whose words are CLS and RET (30_encoding.md R54, R57; 41_flow.md R80). -/
def sysAddrOk (nnn : Addr) : Bool := nnn != 0x0E0 && nnn != 0x0EE

/-- An instruction term that some word of the opcode map stands for. -/
def Instr.wellFormed : Instr → Bool
  | .sys nnn => sysAddrOk nnn
  | .cls | .ret | .jp _ | .call _ | .seImm _ _ | .sneImm _ _ | .seReg _ _ | .ldImm _ _ | .addImm _ _ | .ldReg _ _ | .or _ _
  | .and _ _ | .xor _ _ | .addReg _ _ | .sub _ _ | .shr _ _ | .subn _ _ | .shl _ _ | .sneReg _ _ | .ldI _ | .jpV0 _ | .rnd _ _
  | .drw _ _ _ | .skp _ | .sknp _ | .ldVxDT _ | .ldVxK _ | .ldDTVx _ | .ldSTVx _ | .addI _ | .ldF _ | .ldB _ | .ldMemVx _
  | .ldVxMem _ => true

end Sys2Proof
end

