-- ==== Sys2Proof/Decode.lean ====
section
/-! DEFINITION. The decoder of 30_encoding.md R54, total on all 65536 words and on any bytes, and after it the encoder of R62 and
the opcode map of R55, a row per form (the bit patterns: log 11; full-word and ignored-nibble matches: log 12). A word the map does not
hold is a DecodeMiss (R56): the decoder rejects it by name and the cycle makes a no-operation of it (40_cycle.md R74). -/

namespace Sys2Proof

/-! ## Fields of a word (R51) -/

/-- `op`, bits 15:12. -/
def fieldOp (w : Word) : Nibble := w.extractLsb' 12 4
/-- `x`, bits 11:8, a direct register index. -/
def fieldX (w : Word) : Reg := (w.extractLsb' 8 4).toFin
/-- `y`, bits 7:4, a direct register index. -/
def fieldY (w : Word) : Reg := (w.extractLsb' 4 4).toFin
/-- `n`, bits 3:0. -/
def fieldN (w : Word) : Nibble := w.extractLsb' 0 4
/-- `kk`, bits 7:0. -/
def fieldKK (w : Word) : Byte := w.extractLsb' 0 8
/-- `nnn`, bits 11:0. -/
def fieldNNN (w : Word) : Addr := w.extractLsb' 0 12

/-- The byte of a word that stands at the lower offset (20_memory.md R33: big-endian). -/
def highByte (w : Word) : Byte := w.extractLsb' 8 8
/-- The byte of a word that stands at the higher offset (20_memory.md R33). -/
def lowByte (w : Word) : Byte := w.extractLsb' 0 8
/-- The word two bytes in ascending offsets make: `w = {Mem[pc], Mem[pc+1]}` (20_memory.md R33). -/
def wordOf (hi lo : Byte) : Word := hi ++ lo

/-! ## The decoder (R54) -/

/-- Family 0: CLS and RET match on the full word, every other word is SYS (R57). -/
def decodeFamily0 (w : Word) : Instr :=
  if w = 0x00E0 then .cls else if w = 0x00EE then .ret else .sys (fieldNNN w)

/-- Family 8: the low nibble selects the operation. -/
def decodeFamily8 (w : Word) : Option Instr :=
  match (fieldN w).toNat with
  | 0x0 => some (.ldReg (fieldX w) (fieldY w))
  | 0x1 => some (.or (fieldX w) (fieldY w))
  | 0x2 => some (.and (fieldX w) (fieldY w))
  | 0x3 => some (.xor (fieldX w) (fieldY w))
  | 0x4 => some (.addReg (fieldX w) (fieldY w))
  | 0x5 => some (.sub (fieldX w) (fieldY w))
  | 0x6 => some (.shr (fieldX w) (fieldY w))
  | 0x7 => some (.subn (fieldX w) (fieldY w))
  | 0xE => some (.shl (fieldX w) (fieldY w))
  | _ => none

/-- Family E: the low byte selects the operation. -/
def decodeFamilyE (w : Word) : Option Instr :=
  if fieldKK w = 0x9E then some (.skp (fieldX w))
  else if fieldKK w = 0xA1 then some (.sknp (fieldX w))
  else none

/-- Family F: the low byte selects the operation. -/
def decodeFamilyF (w : Word) : Option Instr :=
  if fieldKK w = 0x07 then some (.ldVxDT (fieldX w))
  else if fieldKK w = 0x0A then some (.ldVxK (fieldX w))
  else if fieldKK w = 0x15 then some (.ldDTVx (fieldX w))
  else if fieldKK w = 0x18 then some (.ldSTVx (fieldX w))
  else if fieldKK w = 0x1E then some (.addI (fieldX w))
  else if fieldKK w = 0x29 then some (.ldF (fieldX w))
  else if fieldKK w = 0x33 then some (.ldB (fieldX w))
  else if fieldKK w = 0x55 then some (.ldMemVx (fieldX w))
  else if fieldKK w = 0x65 then some (.ldVxMem (fieldX w))
  else none

/-- `decode(w)` of R54: dispatch on the highest nibble; families 5 and 9 do not examine their low nibble (R58). -/
def decode (w : Word) : Option Instr :=
  match (fieldOp w).toNat with
  | 0x0 => some (decodeFamily0 w)
  | 0x1 => some (.jp (fieldNNN w))
  | 0x2 => some (.call (fieldNNN w))
  | 0x3 => some (.seImm (fieldX w) (fieldKK w))
  | 0x4 => some (.sneImm (fieldX w) (fieldKK w))
  | 0x5 => some (.seReg (fieldX w) (fieldY w))
  | 0x6 => some (.ldImm (fieldX w) (fieldKK w))
  | 0x7 => some (.addImm (fieldX w) (fieldKK w))
  | 0x8 => decodeFamily8 w
  | 0x9 => some (.sneReg (fieldX w) (fieldY w))
  | 0xA => some (.ldI (fieldNNN w))
  | 0xB => some (.jpV0 (fieldNNN w))
  | 0xC => some (.rnd (fieldX w) (fieldKK w))
  | 0xD => some (.drw (fieldX w) (fieldY w) (fieldN w))
  | 0xE => decodeFamilyE w
  | _ => decodeFamilyF w

/-- Why the byte decoder answers no instruction. -/
inductive DecodeReject where
  /-- fewer than two bytes: every instruction is one 16-bit word (R50) -/
  | truncated
  /-- the word matches no known encoding (R56) -/
  | decodeMiss (w : Word)
  deriving DecidableEq, Repr

/-- The decoder on bytes in ascending offsets: the instruction and the bytes after it, or a rejection by name. -/
def decodeBytes : List Byte → Except DecodeReject (Instr × List Byte)
  | hi :: lo :: rest =>
    match decode (wordOf hi lo) with
    | some i => .ok (i, rest)
    | none => .error (.decodeMiss (wordOf hi lo))
  | [_] => .error .truncated
  | [] => .error .truncated

/-- The instruction the decoder reads from the opcode table's word `w` of `nbits` bits (bits above `nbits` are 0), laid out as the
hardware stores it, high byte first (20_memory.md R33). -/
def decodeTableWord (nbits w : Nat) : Option Instr :=
  let word : Word := BitVec.ofNat 16 (w % 2 ^ nbits)
  match decodeBytes [highByte word, lowByte word] with
  | .ok (i, _) => some i
  | .error _ => none

/-! ## The encoder (R62) -/

/-- Format A: `op*4096 + nnn`. -/
def encodeA (op : Nibble) (nnn : Addr) : Word := op ++ nnn
/-- Format XK: `op*4096 + x*256 + kk`. -/
def encodeXK (op : Nibble) (x : Reg) (kk : Byte) : Word := op ++ BitVec.ofFin (w := 4) x ++ kk
/-- Formats XY and XYN: `op*4096 + x*256 + y*16 + n`. -/
def encodeXYN (op : Nibble) (x y : Reg) (n : Nibble) : Word :=
  op ++ BitVec.ofFin (w := 4) x ++ BitVec.ofFin (w := 4) y ++ n

/-- The word of an instruction (R62 with the opcodes of R55); the ignored low nibble of 5xy0 and 9xy0 is 0 (R58). -/
def encode : Instr → Word
  | .sys nnn => encodeA 0x0 nnn
  | .cls => 0x00E0
  | .ret => 0x00EE
  | .jp nnn => encodeA 0x1 nnn
  | .call nnn => encodeA 0x2 nnn
  | .seImm x kk => encodeXK 0x3 x kk
  | .sneImm x kk => encodeXK 0x4 x kk
  | .seReg x y => encodeXYN 0x5 x y 0x0
  | .ldImm x kk => encodeXK 0x6 x kk
  | .addImm x kk => encodeXK 0x7 x kk
  | .ldReg x y => encodeXYN 0x8 x y 0x0
  | .or x y => encodeXYN 0x8 x y 0x1
  | .and x y => encodeXYN 0x8 x y 0x2
  | .xor x y => encodeXYN 0x8 x y 0x3
  | .addReg x y => encodeXYN 0x8 x y 0x4
  | .sub x y => encodeXYN 0x8 x y 0x5
  | .shr x y => encodeXYN 0x8 x y 0x6
  | .subn x y => encodeXYN 0x8 x y 0x7
  | .shl x y => encodeXYN 0x8 x y 0xE
  | .sneReg x y => encodeXYN 0x9 x y 0x0
  | .ldI nnn => encodeA 0xA nnn
  | .jpV0 nnn => encodeA 0xB nnn
  | .rnd x kk => encodeXK 0xC x kk
  | .drw x y n => encodeXYN 0xD x y n
  | .skp x => encodeXK 0xE x 0x9E
  | .sknp x => encodeXK 0xE x 0xA1
  | .ldVxDT x => encodeXK 0xF x 0x07
  | .ldVxK x => encodeXK 0xF x 0x0A
  | .ldDTVx x => encodeXK 0xF x 0x15
  | .ldSTVx x => encodeXK 0xF x 0x18
  | .addI x => encodeXK 0xF x 0x1E
  | .ldF x => encodeXK 0xF x 0x29
  | .ldB x => encodeXK 0xF x 0x33
  | .ldMemVx x => encodeXK 0xF x 0x55
  | .ldVxMem x => encodeXK 0xF x 0x65

/-- The two bytes of an instruction in ascending offsets (20_memory.md R33). -/
def encodeBytes (i : Instr) : List Byte := [highByte (encode i), lowByte (encode i)]

/-! ## The opcode map (R55) -/

/-- One row's `mask` and `match`: a word selects the row when `w &&& mask = pattern`. -/
structure OpcodeRow where
  mask : Word
  pattern : Word
  deriving DecidableEq, Repr

/-- A word selects a row (R55). -/
def OpcodeRow.selects (r : OpcodeRow) (w : Word) : Bool := w &&& r.mask == r.pattern

/-- The row of an instruction's form, its `mask` and `match` columns copied from R55. -/
def opcodeRow : Instr → OpcodeRow
  | .sys _ => ⟨0xF000, 0x0000⟩
  | .cls => ⟨0xFFFF, 0x00E0⟩
  | .ret => ⟨0xFFFF, 0x00EE⟩
  | .jp _ => ⟨0xF000, 0x1000⟩
  | .call _ => ⟨0xF000, 0x2000⟩
  | .seImm _ _ => ⟨0xF000, 0x3000⟩
  | .sneImm _ _ => ⟨0xF000, 0x4000⟩
  | .seReg _ _ => ⟨0xF000, 0x5000⟩
  | .ldImm _ _ => ⟨0xF000, 0x6000⟩
  | .addImm _ _ => ⟨0xF000, 0x7000⟩
  | .ldReg _ _ => ⟨0xF00F, 0x8000⟩
  | .or _ _ => ⟨0xF00F, 0x8001⟩
  | .and _ _ => ⟨0xF00F, 0x8002⟩
  | .xor _ _ => ⟨0xF00F, 0x8003⟩
  | .addReg _ _ => ⟨0xF00F, 0x8004⟩
  | .sub _ _ => ⟨0xF00F, 0x8005⟩
  | .shr _ _ => ⟨0xF00F, 0x8006⟩
  | .subn _ _ => ⟨0xF00F, 0x8007⟩
  | .shl _ _ => ⟨0xF00F, 0x800E⟩
  | .sneReg _ _ => ⟨0xF000, 0x9000⟩
  | .ldI _ => ⟨0xF000, 0xA000⟩
  | .jpV0 _ => ⟨0xF000, 0xB000⟩
  | .rnd _ _ => ⟨0xF000, 0xC000⟩
  | .drw _ _ _ => ⟨0xF000, 0xD000⟩
  | .skp _ => ⟨0xF0FF, 0xE09E⟩
  | .sknp _ => ⟨0xF0FF, 0xE0A1⟩
  | .ldVxDT _ => ⟨0xF0FF, 0xF007⟩
  | .ldVxK _ => ⟨0xF0FF, 0xF00A⟩
  | .ldDTVx _ => ⟨0xF0FF, 0xF015⟩
  | .ldSTVx _ => ⟨0xF0FF, 0xF018⟩
  | .addI _ => ⟨0xF0FF, 0xF01E⟩
  | .ldF _ => ⟨0xF0FF, 0xF029⟩
  | .ldB _ => ⟨0xF0FF, 0xF033⟩
  | .ldMemVx _ => ⟨0xF0FF, 0xF055⟩
  | .ldVxMem _ => ⟨0xF0FF, 0xF065⟩

end Sys2Proof
end

