-- ==== Sys2Proof/Config.lean ====
section
/-! DEFINITION. What is fixed for the machine (00_scope.md R4) and the values the spec leaves open. A free value is an opaque
constant applied to the number of the cycle that draws it: nothing in Lean can evaluate one. The parameter FONT is
`Machine.defaultFont` (Machine/Memory.lean), beside the memory that holds it. -/

namespace Sys2Proof.Config

/-- MEM_SIZE: offsets 0x000 to 0xFFF are legal (00_scope.md R4, 20_memory.md R30). -/
def memSize : Nat := 4096

/-- PROG_BASE: where the image is loaded and where `pc` starts (00_scope.md R4, 10_state.md R14). -/
def progBase : Nat := 0x200

/-- PROG_MAX: the longest program image in bytes (00_scope.md R4, 70_reset_and_hazards.md R152). -/
def progMax : Nat := 3584

/-- The hardware default of the parameter STACK_DEPTH; `none` stands for `unbounded` (00_scope.md R4, 10_state.md R16). -/
def defaultStackDepth : Option Nat := some 16

/-- The 16 key levels a cycle samples where the host's script says nothing; bit `k` is `Key[k]` (40_cycle.md R78; log 3). -/
opaque freeKeys : Nat → BitVec 16

/-- The random byte supplied to a cycle where the host's script says nothing (42_alu.md R102; log 3). -/
opaque freeRnd : Nat → Byte

/-- What a fault leaves in a general register it leaves unspecified, by cycle and register (60_exceptions.md R136 (d); log 2). -/
opaque freeReg : Nat → Reg → Byte

/-- What a fault leaves in `I` where it leaves it unspecified, by cycle (60_exceptions.md R136 (d); log 2). -/
opaque freeIndex : Nat → Word

/-- What a fault leaves in a memory byte it leaves unspecified, by cycle and offset (60_exceptions.md R136 (d); log 2). -/
opaque freeMem : Nat → Nat → Byte

/-- What a fault leaves in a pixel it leaves unspecified, by cycle, column and row (60_exceptions.md R136 (d); log 2). -/
opaque freePixel : Nat → Nat → Nat → Bool

end Sys2Proof.Config
end

