-- ==== Sys2Proof/Machine/State.lean ====
section
/-! DEFINITION. The state of the block (10_state.md), plain data: the tuple
`(V, I, pc, Stack, sp, DT, ST, Disp, Mem, FAULT)` at the head of that file, and beside it the inputs and the parameter its steps
read. State.reset is the state when reset is released (10_state.md R24, 70_reset_and_hazards.md R150). -/

namespace Sys2Proof.Machine

/-- The kind of a memory access (20_memory.md R34). -/
inductive AccessKind where
  | fetch
  | read
  | write
  deriving DecidableEq, Repr

/-- The fault records (10_state.md R21; 60_exceptions.md R130). A raise stores one in the register FAULT and the step answers a NEXT
state, the halted one (60_exceptions.md R136; log 1); no step of this model answers the outcome `.fault`. -/
inductive Fault where
  /-- MemoryFault, code 1: raised by the fetch, DRW, LD B, LD [I] and LD Vx,[I] on an offset above 0xFFF (R131).
  Safe: the block halts where the spec says it halts (log 1). -/
  | memory (addr : Nat) (access : AccessKind)
  /-- StackFault(overflow), code 2: raised by CALL with `sp = STACK_DEPTH` (R132). Safe (log 5). -/
  | stackOverflow
  /-- StackFault(underflow), code 3: raised by RET with an empty stack (R132). Safe (log 17). -/
  | stackUnderflow
  /-- KeyFault, code 4: raised by SKP, SKNP and LD Vx,K on an index `V[x]` above 15 (R133). Safe (log 17). -/
  | key (index : Byte)
  deriving DecidableEq, Repr

/-- Why a step has no meaning. Every instruction of the table has one, so no step of this model answers `.refused`. -/
inductive Refusal where
  /-- An instruction of the table without a meaning yet, by its mnemonic: raised by an arm of `exec` only. Safe. -/
  | notModelled (mnemonic : String)
  deriving DecidableEq, Repr

/-- What the host supplies to one cycle (40_cycle.md R78). -/
structure Input where
  /-- `key[15:0]`: bit `k` is `Key[k]`, 1 meaning pressed (10_state.md R20; 60_exceptions.md R142). -/
  key : BitVec 16
  /-- `rnd[7:0]`: the random byte, read when the cycle executes RND (42_alu.md R102). -/
  rnd : Byte
  deriving DecidableEq, Repr

/-- The display buffer `Disp[y][x]`: 32 rows, 0 topmost, of 64 columns, 0 leftmost (10_state.md R19). -/
abbrev Display := Vector (Vector Bool 64) 32

/-- The display buffer with every pixel 0 (10_state.md R19, R24). -/
def Display.blank : Display := Vector.replicate 32 (Vector.replicate 64 false)

/-- `Mem[0..4095]` (10_state.md R22) as the bytes that differ from the reset contents, in strictly rising offsets (log 7). -/
abbrev Memory := List Host.Cell

/-- The state of CH8CORE. -/
structure State where
  /-- `V[0..15]`; `V[15]` is VF (10_state.md R10, R12). -/
  V : Vector Byte 16
  /-- The index register (10_state.md R13). -/
  I : Word
  /-- The program counter; in a cycle it is `pc_cur` (10_state.md R14). -/
  pc : Word
  /-- The saved program counters, the last pushed first; `sp` is its length (10_state.md R16; log 6). -/
  stack : List Word
  /-- The delay timer (10_state.md R17). -/
  DT : Byte
  /-- The sound timer (10_state.md R17). -/
  ST : Byte
  /-- `Disp` (10_state.md R19). -/
  disp : Display
  /-- `Mem` (10_state.md R22). -/
  mem : Memory
  /-- The fault status; `none` is running (10_state.md R21). -/
  FAULT : Option Fault
  /-- The host's samples for the coming cycles; where it is empty a cycle's sample is free (40_cycle.md R78; log 3). -/
  inputs : List Input
  /-- The number of completed cycles, which names the free values a cycle draws (log 4). -/
  cycle : Nat
  /-- The parameter STACK_DEPTH, `none` for `unbounded`; no step changes it (00_scope.md R4, 10_state.md R16; log 5). -/
  stackDepth : Option Nat
  deriving DecidableEq, Repr

/-- The state when reset is released, with no program loaded (10_state.md R24; 70_reset_and_hazards.md R150; log 9,
log 19). -/
def State.reset : State where
  V := Vector.replicate 16 0
  I := 0
  pc := 0x200
  stack := []
  DT := 0
  ST := 0
  disp := Display.blank
  mem := []
  FAULT := none
  inputs := []
  cycle := 0
  stackDepth := Config.defaultStackDepth

/-- `sp`, the number of valid stack entries (10_state.md R16; log 6). -/
def State.sp (s : State) : Nat := s.stack.length

/-- `Stack[k]` counted from the bottom; entries at `sp` and above are not state (10_state.md R16). -/
def State.stackEntry (s : State) (k : Nat) : Option Word := s.stack.reverse[k]?

end Sys2Proof.Machine
end

