-- ==== Sys2Proof/Machine/Flags.lean ====
section
/-! DEFINITION. Every value the instructions write to VF (10_state.md R12; 42_alu.md R97 to R101; 44_display.md R116). -/

namespace Sys2Proof.Machine

/-- VF is written whole, 0x00 or 0x01 (10_state.md R12). -/
def flagByte (f : Bool) : Byte := if f then 1 else 0

/-- ADD: "flag register = 1 if the untruncated sum exceeds 255" (42_alu.md R97). -/
def carryFlag (a b : Byte) : Bool := decide (a.toNat + b.toNat > 255)

/-- SUB and SUBN, the same strict test for both: "flag register = 1 if x > y" (42_alu.md R98, R100). -/
def greaterFlag (a b : Byte) : Bool := decide (a.toNat > b.toNat)

/-- SHR: bit 0 of the source before the shift (42_alu.md R99). -/
def shiftRightFlag (b : Byte) : Bool := b.getLsbD 0

/-- SHL: bit 7 of the source before the shift (42_alu.md R101). -/
def shiftLeftFlag (b : Byte) : Bool := b.getLsbD 7

end Sys2Proof.Machine
end

