-- ==== Sys2Proof/Machine/Memory.lean ====
section
/-! DEFINITION. The 4096-byte store (20_memory.md R30 to R32): its reset contents, and reading and writing one byte of it in the
canonical form (strictly rising offsets, no entry equal to the reset contents; log 7). The range check is in Machine/Ops.lean. -/

namespace Sys2Proof.Machine

/-- The glyph of hexadecimal digits 0 to 3 (20_memory.md R32). -/
def glyphs0to3 : List Byte :=
  [0xF0, 0x90, 0x90, 0x90, 0xF0] ++ [0x20, 0x60, 0x20, 0x20, 0x70] ++
  [0xF0, 0x10, 0xF0, 0x80, 0xF0] ++ [0xF0, 0x10, 0xF0, 0x10, 0xF0]

/-- The glyphs of digits 4 to 7 (20_memory.md R32). -/
def glyphs4to7 : List Byte :=
  [0x90, 0x90, 0xF0, 0x10, 0x10] ++ [0xF0, 0x80, 0xF0, 0x10, 0xF0] ++
  [0xF0, 0x80, 0xF0, 0x90, 0xF0] ++ [0xF0, 0x10, 0x20, 0x40, 0x40]

/-- The glyphs of digits 8 to B (20_memory.md R32). -/
def glyphs8toB : List Byte :=
  [0xF0, 0x90, 0xF0, 0x90, 0xF0] ++ [0xF0, 0x90, 0xF0, 0x10, 0xF0] ++
  [0xF0, 0x90, 0xF0, 0x90, 0x90] ++ [0xE0, 0x90, 0xE0, 0x90, 0xE0]

/-- The glyphs of digits C to F (20_memory.md R32). -/
def glyphsCtoF : List Byte :=
  [0xF0, 0x80, 0x80, 0x80, 0xF0] ++ [0xE0, 0x90, 0x90, 0x90, 0xE0] ++
  [0xF0, 0x80, 0xF0, 0x80, 0xF0] ++ [0xF0, 0x80, 0xF0, 0x80, 0x80]

/-- The parameter FONT at its default, 80 bytes from offset 0 (20_memory.md R31, R32; the spec's decision D12; log 8). -/
def defaultFont : List Byte := glyphs0to3 ++ glyphs4to7 ++ glyphs8toB ++ glyphsCtoF

/-- What an offset the memory does not list reads as: the reset contents, FONT at 0x000..0x04F and 0x00 elsewhere
(10_state.md R24; 20_memory.md R31; log 7). -/
def resetByte (a : Nat) : Byte := (defaultFont[a]?).getD 0

/-- The byte at offset `a`. -/
def Memory.get : Memory → Nat → Byte
  | [], a => resetByte a
  | (k, v) :: m, a => if a = k then v else Memory.get m a

/-- Forget what the memory lists at offset `a`. -/
def Memory.erase : Memory → Nat → Memory
  | [], _ => []
  | (k, v) :: m, a => if a = k then Memory.erase m a else (k, v) :: Memory.erase m a

/-- List byte `b` at offset `a`, before the first greater offset. -/
def Memory.insert : Memory → Nat → Byte → Memory
  | [], a, b => [(a, b)]
  | (k, v) :: m, a, b => if a < k then (a, b) :: (k, v) :: m else (k, v) :: Memory.insert m a b

/-- Store byte `b` at offset `a`, keeping the canonical form. -/
def Memory.set (m : Memory) (a : Nat) (b : Byte) : Memory :=
  if b = resetByte a then Memory.erase m a else Memory.insert (Memory.erase m a) a b

/-- The canonical form from offset `lo` on. -/
def Memory.wfFrom : Nat → Memory → Bool
  | _, [] => true
  | lo, (k, v) :: m => decide (lo ≤ k) && decide (k < Config.memSize) && (v != resetByte k) && Memory.wfFrom (k + 1) m

/-- The canonical form: strictly rising offsets inside the address space, none listed with its reset contents. -/
def Memory.wf (m : Memory) : Bool := Memory.wfFrom 0 m

/-- Store the bytes of a list at ascending offsets from `a`. -/
def Memory.setBytes : Memory → Nat → List Byte → Memory
  | m, _, [] => m
  | m, a, b :: bs => Memory.setBytes (Memory.set m a b) (a + 1) bs

end Sys2Proof.Machine
end

