-- ==== Sys2Proof/Machine/Operands.lean ====
section
/-! DEFINITION. The operand forms (30_encoding.md R53; 43_index_memory.md R104; 45_keypad_timers.md R119): a register, an immediate
used as it stands, memory at `I` plus a constant, a key named by a register's value, and the cycle's inputs. -/

namespace Sys2Proof.Machine

/-- VF, the last register (10_state.md R12). -/
def VF : Reg := 15

/-- Register 0, the one the indexed jump adds (10_state.md R11). -/
def V0 : Reg := 0

/-- The register operand `V[r]` (30_encoding.md R53). -/
def State.reg (s : State) (r : Reg) : Byte := s.V[r]

/-- `V[r] <- v` (00_scope.md R5). -/
def State.setReg (s : State) (r : Reg) (v : Byte) : State := { s with V := s.V.set r v }

/-- `zext_16(nnn)` (30_encoding.md R53). -/
def zextAddr (nnn : Addr) : Word := nnn.setWidth 16

/-- `zext_16(V[x])` (42_alu.md R103; 43_index_memory.md R106, R107). -/
def zextByte (b : Byte) : Word := b.setWidth 16

/-- The effective address of the `k`-th byte an instruction touches, an unbounded natural (43_index_memory.md R104). -/
def State.effAddr (s : State) (k : Nat) : Nat := s.I.toNat + k

/-- All registers in ascending order. -/
def allRegs : List Reg := [0, 1, 2, 3, 4, 5, 6, 7, 8, 9, 10, 11, 12, 13, 14, 15]

/-- The registers 0 to `x` in ascending order, the ones a bulk transfer moves (43_index_memory.md R109, R110). -/
def regsUpTo (x : Reg) : List Reg := allRegs.filter (fun r => decide (r ≤ x))

/-- The inputs of this cycle: the host's script, and past its end free values (40_cycle.md R78; log 3). -/
def State.sample (s : State) : Input :=
  match s.inputs with
  | i :: _ => i
  | [] => ⟨Config.freeKeys s.cycle, Config.freeRnd s.cycle⟩

/-- `Key[k]` of this cycle's sample (45_keypad_timers.md R119). -/
def State.keyPressed (s : State) (k : Byte) : Bool := s.sample.key.getLsbD k.toNat

/-- The key operand: the value of register `x` names one of the 16 keys or raises KeyFault (45_keypad_timers.md R119). -/
def State.keyIndex (s : State) (x : Reg) : Except Fault Byte :=
  if (s.reg x).toNat ≤ 15 then .ok (s.reg x) else .error (.key (s.reg x))

/-- The three decimal digits of a byte, hundreds first (43_index_memory.md R108). -/
def bcdDigits (v : Byte) : List Byte :=
  [BitVec.ofNat 8 (v.toNat / 100), BitVec.ofNat 8 (v.toNat / 10 % 10), BitVec.ofNat 8 (v.toNat % 10)]

end Sys2Proof.Machine
end

