-- ==== Sys2Proof/Machine/Ops.lean ====
section
/-! DEFINITION. The operations the meanings and the cycle share: the other register writes, the memory primitives with their range
check (20_memory.md R34 to R37), the call stack (10_state.md R16), what a cycle commits to `pc` (40_cycle.md R76), raising a fault
(60_exceptions.md R136) and the end of a cycle (40_cycle.md R75). -/

namespace Sys2Proof.Machine

/-! ## Registers outside `V` -/

/-- `I <- v` (10_state.md R13). -/
def State.setI (s : State) (v : Word) : State := { s with I := v }
/-- `next_pc <- v`: the one value the cycle commits to `pc` (40_cycle.md R76; log 21). -/
def State.setPc (s : State) (v : Word) : State := { s with pc := v }
/-- Replace the call stack (10_state.md R16). -/
def State.setStack (s : State) (st : List Word) : State := { s with stack := st }
/-- `DT <- v` (10_state.md R17). -/
def State.setDT (s : State) (v : Byte) : State := { s with DT := v }
/-- `ST <- v` (10_state.md R17). -/
def State.setST (s : State) (v : Byte) : State := { s with ST := v }
/-- Replace the display buffer (10_state.md R19). -/
def State.setDisp (s : State) (d : Display) : State := { s with disp := d }
/-- Replace the memory (10_state.md R22). -/
def State.setMem (s : State) (m : Memory) : State := { s with mem := m }

/-! ## The program counter -/

/-- The default advance, `next_pc = pc_cur + 2` (40_cycle.md R70, R73). -/
def State.advance (s : State) : State := s.setPc (s.pc + 2)

/-- The skip policy: `pc_cur + 4` when taken, `pc_cur + 2` when not (41_flow.md R89 (a)). -/
def State.skipIf (s : State) (taken : Bool) : State := s.setPc (if taken then s.pc + 4 else s.pc + 2)

/-! ## Memory (20_memory.md R34 to R37) -/

/-- An access to offset `a` is legal if and only if `a <= 0xFFF` (R34). -/
def legalOffset (a : Nat) : Bool := decide (a ≤ 0xFFF)

/-- `MemRead(a, 1)` (R35). -/
def memRead (s : State) (a : Nat) : Except Fault Byte :=
  if legalOffset a then .ok (s.mem.get a) else .error (.memory a .read)

/-- `MemWrite(a, 1, v)` (R37). -/
def memWrite (s : State) (a : Nat) (v : Byte) : Except Fault State :=
  if legalOffset a then .ok (s.setMem (s.mem.set a v)) else .error (.memory a .write)

/-- `MemRead(pc_cur, 2)`, big-endian, not wrapping past 0xFFF (R33, R36; 40_cycle.md R71; log 10). -/
def fetch (s : State) : Except Fault Word :=
  if !legalOffset s.pc.toNat then .error (.memory s.pc.toNat .fetch)
  else if !legalOffset (s.pc.toNat + 1) then .error (.memory (s.pc.toNat + 1) .fetch)
  else .ok (wordOf (s.mem.get s.pc.toNat) (s.mem.get (s.pc.toNat + 1)))

/-- A multi-byte store: one MemWrite a byte, in ascending offsets from `a` (R37, R39). -/
def storeBytes (s : State) (a : Nat) : List Byte → Except Fault State
  | [] => .ok s
  | b :: bs =>
    match memWrite s a b with
    | .ok t => storeBytes t (a + 1) bs
    | .error f => .error f

/-- The loop of `LD [I],Vx`: each register to `Mem[I]`, `I` advanced by one a byte (43_index_memory.md R109). -/
def dumpRegs (s : State) : List Reg → Except Fault State
  | [] => .ok s
  | r :: rs =>
    match memWrite s s.I.toNat (s.reg r) with
    | .ok t => dumpRegs (t.setI (t.I + 1)) rs
    | .error f => .error f

/-- The loop of `LD Vx,[I]`: each register from `Mem[I]`, `I` advanced by one a byte (43_index_memory.md R110). -/
def loadRegs (s : State) : List Reg → Except Fault State
  | [] => .ok s
  | r :: rs =>
    match memRead s s.I.toNat with
    | .ok b => loadRegs ((s.setReg r b).setI (s.I + 1)) rs
    | .error f => .error f

/-! ## The call stack (10_state.md R16; 41_flow.md R81, R83) -/

/-- Push, or StackFault(overflow) when `sp = STACK_DEPTH` (R83; 60_exceptions.md R132). -/
def pushReturn (s : State) (v : Word) : Except Fault State :=
  if s.stackDepth = some s.sp then .error .stackOverflow else .ok (s.setStack (v :: s.stack))

/-- Pop into `next_pc`, or StackFault(underflow) when `sp = 0` (R81; 60_exceptions.md R132). -/
def popReturn (s : State) : Except Fault State :=
  match s.stack with
  | [] => .error .stackUnderflow
  | v :: st => .ok ((s.setStack st).setPc v)

/-! ## The display (44_display.md R116) -/

/-- `Disp[py][px]`; a coordinate outside the grid names no pixel and reads 0 (44_display.md R117 item 1). -/
def Display.pixel (d : Display) (px py : Nat) : Bool :=
  if h : py < 32 ∧ px < 64 then d[py][px] else false

/-- `Disp[py][px] <- Disp[py][px] ^ 1`, for a pixel of the grid. -/
def Display.toggle (d : Display) (px py : Nat) : Display :=
  if h : py < 32 ∧ px < 64 then d.set py (d[py].set px (!d[py][px])) else d

/-- What a draw carries through its loops: the buffer and whether a toggled pixel was set before. -/
structure Canvas where
  disp : Display
  hit : Bool
  deriving DecidableEq, Repr

/-- The pixel is one of the grid; otherwise it is skipped, not wrapped (R116; R117 items 1, 3, 4). -/
def inBuffer (px py : Nat) : Bool := decide (px ≤ 63) && decide (py ≤ 31)

/-- Toggle one pixel and note a collision, or skip it (R116). -/
def drawPixel (c : Canvas) (px py : Nat) : Canvas :=
  if inBuffer px py then ⟨c.disp.toggle px py, c.hit || c.disp.pixel px py⟩ else c

/-- The columns of one sprite row; bit 7 of the byte is column 0 (R116; R117 item 5). -/
def drawCols (c : Canvas) (sx py : Nat) (b : Byte) : List Nat → Canvas
  | [] => c
  | col :: cols => drawCols (if b.getLsbD (7 - col) then drawPixel c (sx + col) py else c) sx py b cols

/-- The rows of a sprite, each read from `I + row` in ascending order (R116). -/
def drawRows (s : State) (c : Canvas) (sx sy : Nat) : List Nat → Except Fault Canvas
  | [] => .ok c
  | row :: rows =>
    match memRead s (s.effAddr row) with
    | .ok b => drawRows s (drawCols c sx (sy + row) b (List.range 8)) sx sy rows
    | .error f => .error f

/-- The start column: 64 and above restarts at column 0 (R116; R117 items 1, 2; log 15). -/
def startColumn (v : Byte) : Nat := if v.toNat ≥ 64 then 0 else v.toNat

/-! ## Taking a fault (60_exceptions.md R136)

The entry is whole: FAULT takes the record, the cycle ends without tick and commit, and the block is halted. There is no vector, no
saved context and no return (R136 (e), R137). What the faulting instruction's pseudocode writes is unspecified afterwards (R136 (d)):
the operations below put free values there, and the meaning hands `raise` the state so prepared. -/

/-- `FAULT <- f` and the end of the cycle; `pc` still holds `pc_cur` (R136 (a), (b)). -/
def raise (f : Fault) (s : State) : State := { s with FAULT := some f }

/-- End an execute phase that may have raised: the state reached, or `unspecified`, the state as R136 (c) and (d) leave it, with the
fault taken in it. -/
def finish (r : Except Fault State) (unspecified : State) : Host.Outcome State Fault Refusal :=
  match r with
  | .ok t => .next t
  | .error f => .next (raise f unspecified)

/-- The offsets from `a` on, `span` of them, that are in range hold unspecified bytes (R136 (d)). -/
def unspecifiedMem (s : State) (a : Nat) : Nat → State
  | 0 => s
  | span + 1 =>
    let t := if legalOffset a then s.setMem (s.mem.set a (Config.freeMem s.cycle a)) else s
    unspecifiedMem t (a + 1) span

/-- The registers 0 to `x` hold unspecified values (R136 (d)). -/
def unspecifiedRegs (s : State) (x : Reg) : State :=
  { s with V := Vector.ofFn (fun r : Fin 16 => if r ≤ x then Config.freeReg s.cycle r else s.V[r]) }

/-- `I` holds an unspecified value (R136 (d)). -/
def unspecifiedI (s : State) : State := s.setI (Config.freeIndex s.cycle)

/-- The pixels of a sprite's footprint: `n` rows of 8 columns from the start position, inside the grid (log 23). -/
def inFootprint (sx sy n px py : Nat) : Bool :=
  decide (sx ≤ px) && decide (px < sx + 8) && decide (sy ≤ py) && decide (py < sy + n) && inBuffer px py

/-- VF and the sprite's footprint hold unspecified values (R136 (d); log 23). -/
def unspecifiedDraw (s : State) (sx sy n : Nat) : State :=
  (s.setDisp (Vector.ofFn (fun py : Fin 32 => Vector.ofFn (fun px : Fin 64 =>
    if inFootprint sx sy n px py then Config.freePixel s.cycle px py else s.disp[py][px])))).setReg VF
      (Config.freeReg s.cycle VF)

/-! ## The end of a cycle (40_cycle.md R75 to R77) -/

/-- One tick of one timer: down by one, saturating at 0 (R75). -/
def tickTimer (t : Byte) : Byte := if t = 0 then 0 else t - 1

/-- Phase 4: both timers tick on the values the execute phase left; the cycle's sample is spent (R75, R78; log 13). -/
def tick (s : State) : State :=
  { s with DT := tickTimer s.DT, ST := tickTimer s.ST, inputs := s.inputs.tail, cycle := s.cycle + 1 }

/-- The end of a cycle whose execute phase is done: a cycle that raised ends at once, any other ticks (R75, R77). -/
def endCycle (s : State) : State :=
  match s.FAULT with
  | some _ => s
  | none => tick s

/-- `endCycle` on an outcome. -/
def endOutcome : Host.Outcome State Fault Refusal → Host.Outcome State Fault Refusal
  | .next t => .next (endCycle t)
  | .fault f => .fault f
  | .refused r => .refused r

/-- The execute phase of a DecodeMiss: nothing but the default advance (R74). -/
def decodeMiss (s : State) : State := s.advance

end Sys2Proof.Machine
end

