-- ==== Sys2Proof/Machine/Boot.lean ====
section
/-! DEFINITION. How a program comes to be in memory (70_reset_and_hazards.md R150 to R152): the host loads the image while reset is
held, before the first cycle. There is no boot code (R151). -/

namespace Sys2Proof.Machine

/-- The state at reset release with the glyph table `font`, the program image `image` and the parameter STACK_DEPTH chosen: byte `j`
of the image at `0x200 + j`. An image longer than PROG_MAX is refused by the loader and the block is not started (R152 (c)); a font
has 80 bytes (20_memory.md R31). -/
def boot (font image : List Byte) (stackDepth : Option Nat) : Option State :=
  if font.length = 80 ∧ image.length ≤ Config.progMax then
    some { State.reset with
      mem := (Memory.setBytes [] 0 font).setBytes Config.progBase image
      stackDepth := stackDepth }
  else none

/-- The state whose very next step fetches and runs the word `w`: the word's two bytes at `pc`, high byte first (20_memory.md R33). A
halted block runs nothing and a `pc` above 0xFFE fetches nothing, so those two alone are mended first (log 20). -/
def placeWord (s : State) (w : Word) : State :=
  let a := if s.pc.toNat ≤ 0xFFE then s.pc else 0x200
  { s with
    pc := a
    FAULT := none
    mem := Memory.setBytes s.mem a.toNat [highByte w, lowByte w] }

end Sys2Proof.Machine
end

