-- ==== Sys2Proof/Machine/Alu.lean ====
section
/-! DEFINITION. Register loads, the ALU and RND (42_alu.md R90 to R103). None faults; each commits `pc_cur + 2`. -/

namespace Sys2Proof.Machine

/-- Write the result and advance; VF is not written implicitly (R91 to R96, R102; 10_state.md R12). -/
def writeResult (x : Reg) (r : Byte) (s : State) : State := (s.setReg x r).advance

/-- Write the result, then VF, and advance: the operands were read before either write, and the flag is written last, so it is what
`V[15]` holds when `x = 15` (R90; log 14). -/
def writeResultAndFlag (x : Reg) (r : Byte) (f : Bool) (s : State) : State :=
  ((s.setReg x r).setReg VF (flagByte f)).advance

/-- `LD Vx, kk` (R91). -/
def execLdImm (x : Reg) (kk : Byte) (s : State) : Host.Outcome State Fault Refusal := .next (writeResult x kk s)

/-- `ADD Vx, kk`: modulo 256, the carry out discarded (R92). -/
def execAddImm (x : Reg) (kk : Byte) (s : State) : Host.Outcome State Fault Refusal :=
  .next (writeResult x (s.reg x + kk) s)

/-- `LD Vx, Vy` (R93). -/
def execLdReg (x y : Reg) (s : State) : Host.Outcome State Fault Refusal := .next (writeResult x (s.reg y) s)

/-- `OR Vx, Vy` (R94). -/
def execOr (x y : Reg) (s : State) : Host.Outcome State Fault Refusal := .next (writeResult x (s.reg x ||| s.reg y) s)

/-- `AND Vx, Vy` (R95). -/
def execAnd (x y : Reg) (s : State) : Host.Outcome State Fault Refusal := .next (writeResult x (s.reg x &&& s.reg y) s)

/-- `XOR Vx, Vy` (R96). -/
def execXor (x y : Reg) (s : State) : Host.Outcome State Fault Refusal := .next (writeResult x (s.reg x ^^^ s.reg y) s)

/-- `ADD Vx, Vy`: no carry in (R97). -/
def execAddReg (x y : Reg) (s : State) : Host.Outcome State Fault Refusal :=
  .next (writeResultAndFlag x (s.reg x + s.reg y) (carryFlag (s.reg x) (s.reg y)) s)

/-- `SUB Vx, Vy` (R98). -/
def execSub (x y : Reg) (s : State) : Host.Outcome State Fault Refusal :=
  .next (writeResultAndFlag x (s.reg x - s.reg y) (greaterFlag (s.reg x) (s.reg y)) s)

/-- `SHR Vx, Vy`: shifts `V[y]` into `V[x]` (R99). -/
def execShr (x y : Reg) (s : State) : Host.Outcome State Fault Refusal :=
  .next (writeResultAndFlag x (s.reg y >>> 1) (shiftRightFlag (s.reg y)) s)

/-- `SUBN Vx, Vy`: the flag test is that of SUB (R100). -/
def execSubn (x y : Reg) (s : State) : Host.Outcome State Fault Refusal :=
  .next (writeResultAndFlag x (s.reg y - s.reg x) (greaterFlag (s.reg x) (s.reg y)) s)

/-- `SHL Vx, Vy`: shifts `V[y]` into `V[x]` (R101). -/
def execShl (x y : Reg) (s : State) : Host.Outcome State Fault Refusal :=
  .next (writeResultAndFlag x (s.reg y <<< 1) (shiftLeftFlag (s.reg y)) s)

/-- `RND Vx, kk`: the cycle's random byte under the mask (R102; log 3). -/
def execRnd (x : Reg) (kk : Byte) (s : State) : Host.Outcome State Fault Refusal :=
  .next (writeResult x (s.sample.rnd &&& kk) s)

end Sys2Proof.Machine
end

