-- ==== Sys2Proof/Machine/DisplayOps.lean ====
section
/-! DEFINITION. The display instructions (44_display.md R115 to R118). -/

namespace Sys2Proof.Machine

/-- `CLS`: every pixel 0, VF not written (R115). -/
def execCls (s : State) : Host.Outcome State Fault Refusal := .next (s.setDisp Display.blank).advance

/-- What a completed draw leaves: the buffer, and VF, the collision flag (R116). -/
def drawn (s : State) (c : Canvas) : State := ((s.setDisp c.disp).setReg VF (flagByte c.hit)).advance

/-- `DRW Vx, Vy, n`: both coordinates are read before VF is written; `n = 0` draws no row and clears VF (R116, R117). -/
def execDrw (x y : Reg) (n : Nibble) (s : State) : Host.Outcome State Fault Refusal :=
  finish ((drawRows s ⟨s.disp, false⟩ (startColumn (s.reg x)) (s.reg y).toNat (List.range n.toNat)).map (drawn s))
    (unspecifiedDraw s (startColumn (s.reg x)) (s.reg y).toNat n.toNat)

end Sys2Proof.Machine
end

