-- ==== Sys2Proof/Machine/Flow.lean ====
section
/-! DEFINITION. Control transfer and skips (41_flow.md R80 to R89). None writes VF or a general register (R89 (b)); no target is
checked at the transfer (R89 (c)). -/

namespace Sys2Proof.Machine

/-- `SYS nnn`: a no-operation, `nnn` ignored (R80; log 12). -/
def execSys (_nnn : Addr) (s : State) : Host.Outcome State Fault Refusal := .next s.advance

/-- `RET`: the popped value is committed as it is; an empty stack raises StackFault(underflow) (R81). -/
def execRet (s : State) : Host.Outcome State Fault Refusal := finish (popReturn s) s

/-- `JP nnn` (R82). -/
def execJp (nnn : Addr) (s : State) : Host.Outcome State Fault Refusal := .next (s.setPc (zextAddr nnn))

/-- `CALL nnn`: pushes `pc_cur + 2`; a full stack raises StackFault(overflow) (R83). -/
def execCall (nnn : Addr) (s : State) : Host.Outcome State Fault Refusal :=
  finish ((pushReturn s (s.pc + 2)).map (fun t => t.setPc (zextAddr nnn))) s

/-- `SE Vx, kk` (R84). -/
def execSeImm (x : Reg) (kk : Byte) (s : State) : Host.Outcome State Fault Refusal := .next (s.skipIf (s.reg x == kk))

/-- `SNE Vx, kk` (R85). -/
def execSneImm (x : Reg) (kk : Byte) (s : State) : Host.Outcome State Fault Refusal := .next (s.skipIf (s.reg x != kk))

/-- `SE Vx, Vy` (R86). -/
def execSeReg (x y : Reg) (s : State) : Host.Outcome State Fault Refusal := .next (s.skipIf (s.reg x == s.reg y))

/-- `SNE Vx, Vy` (R87). -/
def execSneReg (x y : Reg) (s : State) : Host.Outcome State Fault Refusal := .next (s.skipIf (s.reg x != s.reg y))

/-- `JP V0, nnn`: always register 0, no mask to 12 bits (R88). -/
def execJpV0 (nnn : Addr) (s : State) : Host.Outcome State Fault Refusal :=
  .next (s.setPc (zextByte (s.reg V0) + zextAddr nnn))

end Sys2Proof.Machine
end

