-- ==== Sys2Proof/Machine/IndexMemory.lean ====
section
/-! DEFINITION. The index register and the instructions that access memory at `I` (43_index_memory.md R104 to R110). Where one faults,
what its pseudocode writes is unspecified afterwards (60_exceptions.md R136 (d)). -/

namespace Sys2Proof.Machine

/-- `LD I, nnn` (R105). -/
def execLdI (nnn : Addr) (s : State) : Host.Outcome State Fault Refusal := .next (s.setI (zextAddr nnn)).advance

/-- `ADD I, Vx`: modulo 65536, VF not written (R106; log 16). -/
def execAddI (x : Reg) (s : State) : Host.Outcome State Fault Refusal := .next (s.setI (s.I + zextByte (s.reg x))).advance

/-- `LD F, Vx`: all 8 bits of `V[x]`, times 5 (R107). -/
def execLdF (x : Reg) (s : State) : Host.Outcome State Fault Refusal := .next (s.setI (zextByte (s.reg x) * 5)).advance

/-- `LD B, Vx`: hundreds, tens and ones at `I`, `I+1`, `I+2`; `I` unchanged (R108). -/
def execLdB (x : Reg) (s : State) : Host.Outcome State Fault Refusal :=
  finish ((storeBytes s (s.effAddr 0) (bcdDigits (s.reg x))).map State.advance) (unspecifiedMem s (s.effAddr 0) 3)

/-- `LD [I], Vx`: registers 0 to `x` to `I`, `I+1`, ...; `I` ends at `I + x + 1` (R109). -/
def execLdMemVx (x : Reg) (s : State) : Host.Outcome State Fault Refusal :=
  finish ((dumpRegs s (regsUpTo x)).map State.advance) (unspecifiedI (unspecifiedMem s (s.effAddr 0) (x.val + 1)))

/-- `LD Vx, [I]`: registers 0 to `x` from `I`, `I+1`, ...; `I` ends at `I + x + 1` (R110). -/
def execLdVxMem (x : Reg) (s : State) : Host.Outcome State Fault Refusal :=
  finish ((loadRegs s (regsUpTo x)).map State.advance) (unspecifiedI (unspecifiedRegs s x))

end Sys2Proof.Machine
end

