-- ==== Sys2Proof/Machine/KeysTimers.lean ====
section
/-! DEFINITION. Key-state and timer instructions (45_keypad_timers.md R119 to R125). None writes VF implicitly; a key index above 15
raises KeyFault before anything changes (R119). The tick of the same cycle follows the execute phase (40_cycle.md R75). Which
timer forms exist: log 22. -/

namespace Sys2Proof.Machine

/-- `SKP Vx` (R120). -/
def execSkp (x : Reg) (s : State) : Host.Outcome State Fault Refusal :=
  finish ((s.keyIndex x).map (fun k => s.skipIf (s.keyPressed k))) s

/-- `SKNP Vx` (R121). -/
def execSknp (x : Reg) (s : State) : Host.Outcome State Fault Refusal :=
  finish ((s.keyIndex x).map (fun k => s.skipIf (!s.keyPressed k))) s

/-- `LD Vx, K`: the wait for the one key `V[x]` names; a blocked cycle leaves `pc`, and no register is written (R122). -/
def execLdVxK (x : Reg) (s : State) : Host.Outcome State Fault Refusal :=
  finish ((s.keyIndex x).map (fun k => s.setPc (if s.keyPressed k then s.pc + 2 else s.pc))) s

/-- `LD Vx, DT`: the value before this cycle's tick (R123). -/
def execLdVxDT (x : Reg) (s : State) : Host.Outcome State Fault Refusal := .next (s.setReg x s.DT).advance

/-- `LD DT, Vx` (R124). -/
def execLdDTVx (x : Reg) (s : State) : Host.Outcome State Fault Refusal := .next (s.setDT (s.reg x)).advance

/-- `LD ST, Vx` (R125). -/
def execLdSTVx (x : Reg) (s : State) : Host.Outcome State Fault Refusal := .next (s.setST (s.reg x)).advance

end Sys2Proof.Machine
end

