-- ==== Sys2Proof/Machine/Step.lean ====
section
/-! DEFINITION. The cycle operation, the one step of the block (40_cycle.md R70): fetch, decode, execute, timer tick, pc commit. -/

namespace Sys2Proof.Machine

/-- One call of the cycle operation. A halted block does nothing (R77); a fetch may raise (R71); a DecodeMiss is a no-operation (R74);
any instruction is executed once (R73); then the cycle ends (R75 to R77). -/
def step (s : State) : Host.Outcome State Fault Refusal :=
  match s.FAULT with
  | some _ => .next s
  | none =>
    match fetch s with
    | .error f => .next (raise f s)
    | .ok w =>
      match decode w with
      | none => .next (endCycle (decodeMiss s))
      | some i => endOutcome (exec i s)

/-- `s` with the opcode table's word `w` of `nbits` bits stored where the next cycle fetches it (log 20). -/
def State.withFetchWord (s : State) (nbits w : Nat) : State := placeWord s (BitVec.ofNat 16 (w % 2 ^ nbits))

end Sys2Proof.Machine
end

