-- ==== Sys2Proof/Machine/Ports.lean ====
section
/-! DEFINITION. What the host sees of the block (70_reset_and_hazards.md R159; 60_exceptions.md R130, R142) and the accesses to `Mem`
each cycle makes (20_memory.md R39, R43), all functions of the state between two cycles. -/

namespace Sys2Proof.Machine

/-- The code of a fault record (60_exceptions.md R130). -/
def faultRecordCode : Fault → BitVec 3
  | .memory _ _ => 1
  | .stackOverflow => 2
  | .stackUnderflow => 3
  | .key _ => 4

/-- `fault_code`: code 0 is None (R130, R159). -/
def faultCode (s : State) : BitVec 3 :=
  match s.FAULT with
  | none => 0
  | some f => faultRecordCode f

/-- `fault_info`, the recorded value: the offending offset or key index; a StackFault records nothing (R130, R159; log 24). -/
def faultInfo (s : State) : Option (BitVec 17) :=
  match s.FAULT with
  | some (.memory a _) => some (BitVec.ofNat 17 a)
  | some (.key k) => some (k.setWidth 17)
  | some .stackOverflow => none
  | some .stackUnderflow => none
  | none => none

/-- `halted`: `FAULT != None` (R159). -/
def halted (s : State) : Bool := s.FAULT.isSome

/-- `st_nonzero`: `ST != 0` (45_keypad_timers.md R125). -/
def stNonzero (s : State) : Bool := s.ST != 0

/-- `disp_rd_pixel`: the read-only view of the display buffer (60_exceptions.md R142). -/
def dispRdPixel (s : State) (x : BitVec 6) (y : BitVec 5) : Bool := s.disp.pixel x.toNat y.toNat

/-- `decode_miss`: the coming cycle executes a word the decoder misses (40_cycle.md R74). -/
def decodeMissStrobe (s : State) : Bool :=
  match s.FAULT, fetch s with
  | none, .ok w => (decode w).isNone
  | _, _ => false

/-- One access to `Mem`: its kind and its full-width offset (20_memory.md R34). -/
abbrev Access := AccessKind × Nat

/-- The accesses of kind `k` at `a`, `a+1`, ..., `span` of them, ascending (20_memory.md R39). -/
def ascending (k : AccessKind) (a span : Nat) : List Access := (List.range span).map (fun j => (k, a + j))

/-- The fetch: `pc`, then `pc + 1` (20_memory.md R39); a halted block fetches nothing (40_cycle.md R77). -/
def fetchAccesses (s : State) : List Access :=
  match s.FAULT with
  | some _ => []
  | none => ascending .fetch s.pc.toNat 2

/-- The data accesses of an instruction, in order (20_memory.md R39). -/
def dataAccesses (i : Instr) (s : State) : List Access :=
  match i with
  | .drw _ _ n => ascending .read (s.effAddr 0) n.toNat
  | .ldB _ => ascending .write (s.effAddr 0) 3
  | .ldMemVx x => ascending .write (s.effAddr 0) (x.val + 1)
  | .ldVxMem x => ascending .read (s.effAddr 0) (x.val + 1)
  | .sys _ | .cls | .ret | .jp _ | .call _ | .seImm _ _ | .sneImm _ _ | .seReg _ _ | .ldImm _ _ | .addImm _ _ | .ldReg _ _ | .or _ _
  | .and _ _ | .xor _ _ | .addReg _ _ | .sub _ _ | .shr _ _ | .subn _ _ | .shl _ _ | .sneReg _ _ | .ldI _ | .jpV0 _ | .rnd _ _
  | .skp _ | .sknp _ | .ldVxDT _ | .ldVxK _ | .ldDTVx _ | .ldSTVx _ | .addI _ | .ldF _ => []

/-- The first access of a list that is out of range (60_exceptions.md R131, R135). -/
def firstIllegal (l : List Access) : Option Access := l.find? (fun a => !legalOffset a.2)

/-- The accesses that reach the memory port: those before the first illegal one (20_memory.md R34, R43). -/
def transactions (l : List Access) : List Access := l.takeWhile (fun a => legalOffset a.2)

/-! ## The memory port (20_memory.md R43; 70_reset_and_hazards.md R159) -/

/-- One transaction on the memory port; it moves one byte, and exactly one of `mem_rd` and `mem_wr` is active in it (20_memory.md R43). -/
inductive Transaction where
  /-- `mem_rd`: the byte at `mem_addr` comes in on `mem_rdata`. -/
  | read (memAddr : BitVec 12) (memRdata : Byte)
  /-- `mem_wr`: the byte on `mem_wdata` goes out to `mem_addr`. -/
  | write (memAddr : BitVec 12) (memWdata : Byte)
  deriving DecidableEq, Repr

/-- `mem_addr` (R43). -/
def Transaction.memAddr : Transaction → BitVec 12
  | .read a _ => a
  | .write a _ => a

/-- `mem_rd` (R43). -/
def Transaction.memRd : Transaction → Bool
  | .read _ _ => true
  | .write _ _ => false

/-- `mem_wr` (R43). -/
def Transaction.memWr : Transaction → Bool
  | .read _ _ => false
  | .write _ _ => true

/-- `mem_rdata`, "valid for that transaction" (R43): no value in a write. -/
def Transaction.memRdata : Transaction → Option Byte
  | .read _ b => some b
  | .write _ _ => none

/-- `mem_wdata` (R43): no value in a read. -/
def Transaction.memWdata : Transaction → Option Byte
  | .read _ _ => none
  | .write _ b => some b

/-- What a transaction does to the memory behind the port: `Mem[mem_addr] <- mem_wdata` in a write (R43). -/
def Memory.afterTransaction (m : Memory) : Transaction → Memory
  | .read _ _ => m
  | .write a b => m.set a.toNat b

/-- The transaction of a legal access that moves the byte `b`. -/
def performed (a : Access) (b : Byte) : Transaction :=
  match a.1 with
  | .fetch | .read => .read (BitVec.ofNat 12 a.2) b
  | .write => .write (BitVec.ofNat 12 a.2) b

/-- The bytes that a list of reads brings in (R35; 20_memory.md R40 (c)). -/
def bytesRead (s : State) (l : List Access) : List Byte := l.map (fun a => s.mem.get a.2)

/-- The byte each data access of an instruction moves, in order: the digits of LD B, the registers of LD [I],Vx, and for the reads what
memory holds (43_index_memory.md R108, R109; 44_display.md R116). -/
def bytesMoved (i : Instr) (s : State) : List Byte :=
  match i with
  | .ldB x => bcdDigits (s.reg x)
  | .ldMemVx x => (regsUpTo x).map s.reg
  | .sys _ | .cls | .ret | .jp _ | .call _ | .seImm _ _ | .sneImm _ _ | .seReg _ _ | .ldImm _ _ | .addImm _ _ | .ldReg _ _ | .or _ _
  | .and _ _ | .xor _ _ | .addReg _ _ | .sub _ _ | .shr _ _ | .subn _ _ | .shl _ _ | .sneReg _ _ | .ldI _ | .jpV0 _ | .rnd _ _
  | .drw _ _ _ | .skp _ | .sknp _ | .ldVxDT _ | .ldVxK _ | .ldDTVx _ | .ldSTVx _ | .addI _ | .ldF _ | .ldVxMem _ =>
    bytesRead s (dataAccesses i s)

/-- The data transactions of an instruction, in the order of its accesses, up to the first that is out of range (log 25). -/
def dataTransactions (i : Instr) (s : State) : List Transaction :=
  List.zipWith performed (transactions (dataAccesses i s)) (bytesMoved i s)

/-- The transactions of the coming cycle's fetch: two reads, or none where the fetch raises (20_memory.md R36; log 25) or the block is
halted. -/
def fetchTransactions (s : State) : List Transaction :=
  match fetch s with
  | .ok _ => List.zipWith performed (fetchAccesses s) (bytesRead s (fetchAccesses s))
  | .error _ => []

/-- The instruction the coming cycle executes, if any (40_cycle.md R70 to R74, R77). -/
def executed (s : State) : Option Instr :=
  match s.FAULT, fetch s with
  | none, .ok w => decode w
  | none, .error _ => none
  | some _, _ => none

/-- Everything the coming cycle does on the memory port, in order: its fetch, then its instruction's data accesses (20_memory.md R39, R40
(b), R43; 70_reset_and_hazards.md R159). -/
def cycleTransactions (s : State) : List Transaction :=
  fetchTransactions s ++
    match executed s with
    | some i => dataTransactions i s
    | none => []

end Sys2Proof.Machine
end

