-- ==== Sys2Proof/Safety.lean ====
section
/-! DEFINITION. What claims about this machine are stated in: the invariant of its states, when an instruction raises which fault
(60_exceptions.md R131 to R133), and which pieces of state an instruction's pseudocode writes (10_state.md R25). A safe run is one
that never leaves `running`. -/

namespace Sys2Proof.Machine

/-- The block has not stopped on a fault (10_state.md R21). A safe run stays running. -/
def State.running (s : State) : Bool := s.FAULT.isNone

/-- `0 <= sp <= STACK_DEPTH` (10_state.md R16, R18). -/
def State.spOk (s : State) : Bool :=
  match s.stackDepth with
  | none => true
  | some d => decide (s.sp ≤ d)

/-- A fault record names what can fault: an offset above 0xFFF and at most 0x1000E, or a key index of 16 or more (60_exceptions.md R130). -/
def faultRecordOk : Fault → Bool
  | .memory a _ => decide (0xFFF < a) && decide (a ≤ 0x1000E)
  | .stackOverflow => true
  | .stackUnderflow => true
  | .key k => decide (16 ≤ k.toNat)

/-- The invariant of the machine: memory in canonical form, `sp <= STACK_DEPTH` (10_state.md R18), every saved program counter at most
0x1000 and `pc` at most 0x10FE (10_state.md R15, R18), the fault record legal (60_exceptions.md R130). -/
def State.inv (s : State) : Bool :=
  s.mem.wf && s.spOk && s.stack.all (fun v => decide (v.toNat ≤ 0x1000)) && decide (s.pc.toNat ≤ 0x10FE) &&
    s.FAULT.all faultRecordOk

/-- The first offset above 0xFFF among `a`, `a+1`, ..., `span` of them (60_exceptions.md R131, R135). -/
def firstBeyond (a span : Nat) : Option Nat := if span ≥ 1 ∧ a + span - 1 > 0xFFF then some (max a 0x1000) else none

/-- The fault the execute phase of an instruction raises, by the conditions of 60_exceptions.md R131 to R133. -/
def raisedFault (i : Instr) (s : State) : Option Fault :=
  match i with
  | .ret => if s.sp = 0 then some .stackUnderflow else none
  | .call _ => if s.stackDepth = some s.sp then some .stackOverflow else none
  | .skp x | .sknp x | .ldVxK x => if (s.reg x).toNat ≥ 16 then some (.key (s.reg x)) else none
  | .drw _ _ n => (firstBeyond s.I.toNat n.toNat).map (fun a => .memory a .read)
  | .ldB _ => (firstBeyond s.I.toNat 3).map (fun a => .memory a .write)
  | .ldMemVx x => (firstBeyond s.I.toNat (x.val + 1)).map (fun a => .memory a .write)
  | .ldVxMem x => (firstBeyond s.I.toNat (x.val + 1)).map (fun a => .memory a .read)
  | .sys _ | .cls | .jp _ | .seImm _ _ | .sneImm _ _ | .seReg _ _ | .ldImm _ _ | .addImm _ _ | .ldReg _ _ | .or _ _ | .and _ _
  | .xor _ _ | .addReg _ _ | .sub _ _ | .shr _ _ | .subn _ _ | .shl _ _ | .sneReg _ _ | .ldI _ | .jpV0 _ | .rnd _ _ | .ldVxDT _
  | .ldDTVx _ | .ldSTVx _ | .addI _ | .ldF _ => none

/-! ## The access matrix (10_state.md R25): the columns that say "w" -/

/-- The general registers an instruction writes: its destination, and VF for the six of 10_state.md R12. -/
def writesReg (i : Instr) (r : Reg) : Bool :=
  match i with
  | .ldImm x _ | .addImm x _ | .ldReg x _ | .or x _ | .and x _ | .xor x _ | .rnd x _ | .ldVxDT x => r == x
  | .addReg x _ | .sub x _ | .shr x _ | .subn x _ | .shl x _ => r == x || r == VF
  | .drw _ _ _ => r == VF
  | .ldVxMem x => decide (r ≤ x)
  | .sys _ | .cls | .ret | .jp _ | .call _ | .seImm _ _ | .sneImm _ _ | .seReg _ _ | .sneReg _ _ | .ldI _ | .jpV0 _ | .skp _ | .sknp _
  | .ldVxK _ | .ldDTVx _ | .ldSTVx _ | .addI _ | .ldF _ | .ldB _ | .ldMemVx _ => false

/-- The instructions that write `I` (10_state.md R13). -/
def writesI : Instr → Bool
  | .ldI _ | .addI _ | .ldF _ | .ldMemVx _ | .ldVxMem _ => true
  | .sys _ | .cls | .ret | .jp _ | .call _ | .seImm _ _ | .sneImm _ _ | .seReg _ _ | .ldImm _ _ | .addImm _ _ | .ldReg _ _ | .or _ _
  | .and _ _ | .xor _ _ | .addReg _ _ | .sub _ _ | .shr _ _ | .subn _ _ | .shl _ _ | .sneReg _ _ | .jpV0 _ | .rnd _ _ | .drw _ _ _
  | .skp _ | .sknp _ | .ldVxDT _ | .ldVxK _ | .ldDTVx _ | .ldSTVx _ | .ldB _ => false

/-- Whether the sprite at `(sx, sy)`, `n` rows high, toggles the pixel `(px, py)`: the pixel is in the sprite's footprint and its bit of
the sprite row `Mem[I + row]` is 1, bit 7 for the leftmost column (44_display.md R116). -/
def spriteBit (s : State) (sx sy n px py : Nat) : Bool :=
  inFootprint sx sy n px py && (s.mem.get (s.I.toNat + (py - sy))).getLsbD (7 - (px - sx))

/-- The bytes of memory an instruction stores to: the write accesses of 20_memory.md R39. -/
def storesTo (i : Instr) (s : State) (a : Nat) : Bool := (dataAccesses i s).contains (.write, a)

end Sys2Proof.Machine
end

