-- ==== Sys2Proof/Certificates/Slice0/Obligations.lean ====
section
/-! DEFINITION. The statements for the provers. Each docstring names the rules of spec/ it rests on; where a clause rests on one of
the spec's own decisions (92_eei_decisions.md) or on a choice of this model, it says so. `D<n>` is a decision of the spec, `log n`
is notes/assumptions/n.md. -/

open Sys2Proof Sys2Proof.Machine

/-! ## Encoding -/

/-- Words written out from the map of 30_encoding.md R55 and the list of 95_test_vectors.md section 2.6, one or more for every high
nibble, decode to the instruction they stand for. The bit patterns other than 00E0, 6xkk and 7xkk are the spec's decision D13 (log 11);
that 0x01E0 is SYS is its D14 and D16, that 0x5CDF is SE Vx,Vy its D15 (log 12). -/
def Obligations.WordsWrittenOutFromTheMapDecode : Prop :=
  decode 0x00E0 = some .cls ∧ decode 0x00EE = some .ret ∧ decode 0x01E0 = some (.sys 0x1E0) ∧ decode 0x1234 = some (.jp 0x234) ∧
  decode 0x2FFF = some (.call 0xFFF) ∧ decode 0x3A7F = some (.seImm 10 0x7F) ∧ decode 0x4B80 = some (.sneImm 11 0x80) ∧
  decode 0x5CDF = some (.seReg 12 13) ∧ decode 0x6005 = some (.ldImm 0 0x05) ∧ decode 0x7003 = some (.addImm 0 0x03) ∧
  decode 0x8AB7 = some (.subn 10 11) ∧ decode 0x8AB8 = none ∧ decode 0x9CD0 = some (.sneReg 12 13) ∧
  decode 0xA123 = some (.ldI 0x123) ∧ decode 0xB123 = some (.jpV0 0x123) ∧ decode 0xC1F0 = some (.rnd 1 0xF0) ∧
  decode 0xD12F = some (.drw 1 2 15) ∧ decode 0xE19E = some (.skp 1) ∧ decode 0xF10A = some (.ldVxK 1) ∧
  decode 0xF365 = some (.ldVxMem 3) ∧ decode 0xF175 = none

/-- 30_encoding.md R62: a word is the sum of its fields at their places, in the three field layouts (XY is XYN with the row's `sub` as
`n`, X is XK with the row's `sub` as `kk`) and for every instruction over its own row's opcode and `sub`; and the rule's three worked
examples. -/
def Obligations.EncodedWordIsTheSumOfItsFields : Prop :=
  (∀ op nnn, (encodeA op nnn).toNat = op.toNat * 4096 + nnn.toNat) ∧
  (∀ op x kk, (encodeXK op x kk).toNat = op.toNat * 4096 + x.val * 256 + kk.toNat) ∧
  (∀ op x y n, (encodeXYN op x y n).toNat = op.toNat * 4096 + x.val * 256 + y.val * 16 + n.toNat) ∧
  (∀ i : Instr, (encode i).toNat = (opcodeRow i).pattern.toNat + (match i with
    | .sys nnn | .jp nnn | .call nnn | .ldI nnn | .jpV0 nnn => nnn.toNat
    | .seImm x kk | .sneImm x kk | .ldImm x kk | .addImm x kk | .rnd x kk => x.val * 256 + kk.toNat
    | .seReg x y | .sneReg x y | .ldReg x y | .or x y | .and x y | .xor x y | .addReg x y | .sub x y | .shr x y | .subn x y
    | .shl x y => x.val * 256 + y.val * 16
    | .drw x y n => x.val * 256 + y.val * 16 + n.toNat
    | .skp x | .sknp x | .ldVxDT x | .ldVxK x | .ldDTVx x | .ldSTVx x | .addI x | .ldF x | .ldB x | .ldMemVx x
    | .ldVxMem x => x.val * 256
    | .cls | .ret => 0)) ∧
  (∀ x y n, (encode (.drw x y n)).toNat = 0xD000 + x.val * 256 + y.val * 16 + n.toNat) ∧
  encode (.ldImm 0 0x05) = 0x6005 ∧ encodeBytes (.ldImm 0 0x05) = [0x60, 0x05] ∧
  encodeBytes (.addImm 0 0x03) = [0x70, 0x03] ∧ encodeBytes .cls = [0x00, 0xE0]

/-- 30_encoding.md R54, R62 and 20_memory.md R33: every well-formed instruction, at every value of its operands, is what its own word,
and its own two bytes high byte first, decode to, with the bytes after it left over. -/
def Obligations.DecodingAnEncodedInstructionGivesItBack : Prop :=
  ∀ i : Instr, i.wellFormed = true →
    decode (encode i) = some i ∧ ∀ rest, decodeBytes (encodeBytes i ++ rest) = .ok (i, rest)

/-- 30_encoding.md R54, R58: a word that decodes gives a well-formed instruction whose word it is, but for the low nibble of families
5 and 9, which the decoder does not examine (the spec's decision D15). -/
def Obligations.EncodingADecodedWordGivesTheWordBack : Prop :=
  ∀ (w : Word) (i : Instr), decode w = some i →
    i.wellFormed = true ∧ encode i = if fieldOp w = 0x5 ∨ fieldOp w = 0x9 then w &&& 0xFFF0 else w

/-- The table of 30_encoding.md R56: the decoder misses a word exactly in families 8, E and F on the sub-fields that table lists (the
map itself is the spec's decision D13). -/
def Obligations.DecodeMissWordsAreThoseOfTheTable : Prop :=
  ∀ w : Word, decode w = none ↔
    (fieldOp w = 0x8 ∧ fieldN w ∈ [0x8, 0x9, 0xA, 0xB, 0xC, 0xD, 0xF]) ∨
    (fieldOp w = 0xE ∧ fieldKK w ∉ [0x9E, 0xA1]) ∨
    (fieldOp w = 0xF ∧ fieldKK w ∉ [0x07, 0x0A, 0x15, 0x18, 0x1E, 0x29, 0x33, 0x55, 0x65])

/-- 30_encoding.md R55: "A word `w` selects the row whose `(w & mask) == match`; rows 2 and 3 are tested before row 1 (they are the
only overlap)". The patterns of the rows are the spec's decision D13. -/
def Obligations.WordsSelectTheirRowOfTheMap : Prop :=
  (∀ (w : Word) (j : Instr), decode w = some j → (opcodeRow j).selects w = true) ∧
  (∀ (w : Word) (i : Instr), (opcodeRow i).selects w = true →
    ∃ j, decode w = some j ∧ (opcodeRow j = opcodeRow i ∨ (w = 0x00E0 ∧ j = .cls) ∨ (w = 0x00EE ∧ j = .ret)))

/-! ## The cycle -/

/-- 40_cycle.md R70, R73, R75 to R77: where the bytes at `pc` decode to an instruction, the cycle is its execute phase, `exec`, and
then the timer tick, which a cycle that raised does not reach. That the tick follows the execute phase, and in every cycle that does
not fault, is the spec's decision D2, D3, D4 (log 13); `inputs` and `cycle` are the model's own fields (log 3, log 4). -/
def Obligations.StepRunsTheDecodedInstruction : Prop :=
  ∀ (s : State) (i : Instr), s.FAULT = none → s.pc.toNat ≤ 0xFFE →
    decode (wordOf (s.mem.get s.pc.toNat) (s.mem.get (s.pc.toNat + 1))) = some i →
    ∃ t, exec i s = .next t ∧ step s = .next (if t.FAULT = none then
      { t with DT := tickTimer t.DT, ST := tickTimer t.ST, inputs := t.inputs.tail, cycle := t.cycle + 1 } else t)

/-- 40_cycle.md R74, 41_flow.md R80, 30_encoding.md R57: SYS and a DecodeMiss are the same no-operation of one cycle: `pc + 2`, the
timers tick, nothing else (the spec's decisions D3 and D14; `inputs` and `cycle` are the model's own fields, log 3, log 4). -/
def Obligations.SysAndDecodeMissAreNoOperations : Prop :=
  (∀ (nnn : Addr) (s : State), exec (.sys nnn) s = .next { s with pc := s.pc + 2 }) ∧
  (∀ s : State, s.FAULT = none → s.pc.toNat ≤ 0xFFE →
    (decode (wordOf (s.mem.get s.pc.toNat) (s.mem.get (s.pc.toNat + 1))) = none ∨
      ∃ nnn, decode (wordOf (s.mem.get s.pc.toNat) (s.mem.get (s.pc.toNat + 1))) = some (.sys nnn)) →
    ∃ t, step s = .next t ∧ t.DT.toNat = s.DT.toNat - 1 ∧ t.ST.toNat = s.ST.toNat - 1 ∧
      t = { s with pc := s.pc + 2, DT := t.DT, ST := t.ST, inputs := s.inputs.tail, cycle := s.cycle + 1 })

/-- 40_cycle.md R71, 20_memory.md R33, R36: the word is `Mem[pc]*256 + Mem[pc+1]`; past 0xFFE the fetch raises, on `pc` itself or, at
0xFFF, on 0x1000 (the spec's decision D33), and nothing but FAULT changes. -/
def Obligations.FetchIsBigEndianAndFaultsPastTheEnd : Prop :=
  (∀ s : State, s.pc.toNat ≤ 0xFFE →
    ∃ w, fetch s = .ok w ∧ w.toNat = (s.mem.get s.pc.toNat).toNat * 256 + (s.mem.get (s.pc.toNat + 1)).toNat) ∧
  (∀ s : State, s.FAULT = none → 0xFFE < s.pc.toNat →
    step s = .next { s with FAULT := some (.memory (if 0xFFF < s.pc.toNat then s.pc.toNat else 0x1000) .fetch) })

/-- 40_cycle.md R77, 60_exceptions.md R137: once FAULT is not None no number of cycles changes anything (the spec's decision D10). -/
def Obligations.HaltedBlockNeverMoves : Prop :=
  ∀ (k : Nat) (s : State), s.FAULT ≠ none → Host.Core.run Sys2Proof.core k s = .next s

/-- 70_reset_and_hazards.md R162: the cycle is total; from every state it ends in a next state (log 1). -/
def Obligations.EveryCycleAnswersANextState : Prop :=
  ∀ s : State, ∃ t, step s = .next t

/-- 40_cycle.md R75: in a cycle that does not fault each timer goes down by one, saturating at 0, from the value the execute phase left
(the spec's decision D4); in a cycle that faults it keeps its value (R77). -/
def Obligations.TimersTickOncePerCycle : Prop :=
  ∀ s t : State, s.FAULT = none → step s = .next t →
    (t.FAULT = none →
      t.DT.toNat = (match decode (wordOf (s.mem.get s.pc.toNat) (s.mem.get (s.pc.toNat + 1))) with
        | some (.ldDTVx x) => (s.reg x).toNat
        | _ => s.DT.toNat) - 1 ∧
      t.ST.toNat = (match decode (wordOf (s.mem.get s.pc.toNat) (s.mem.get (s.pc.toNat + 1))) with
        | some (.ldSTVx x) => (s.reg x).toNat
        | _ => s.ST.toNat) - 1) ∧
    (t.FAULT ≠ none → t.DT = s.DT ∧ t.ST = s.ST)

/-- The invariant `State.inv` (memory canonical, log 7; `sp <= STACK_DEPTH`, 10_state.md R18; saved program counters at most 0x1000 and
`pc` at most 0x10FE, 10_state.md R15; fault records legal, 60_exceptions.md R130) is kept by every cycle. -/
def Obligations.StepKeepsTheInvariant : Prop :=
  ∀ s t : State, s.inv = true → step s = .next t → t.inv = true

/-- The state at reset release meets the invariant. -/
def Obligations.ResetMeetsTheInvariant : Prop := State.reset.inv = true

/-- 10_state.md R24: `pc` at 0x200 and the display cleared are the source's; the zero registers, timers, free memory, the empty stack
and FAULT = None are the spec's decision D11 (log 9), the glyph bytes, all 80 as the table of 20_memory.md R32 has them, its D12
(log 8), the stack depth its D6 (log 5). -/
def Obligations.ResetValues : Prop :=
  State.reset.pc = 0x200 ∧ (∀ px py, State.reset.disp.pixel px py = false) ∧ (∀ r, State.reset.reg r = 0) ∧ State.reset.I = 0 ∧
  State.reset.sp = 0 ∧ State.reset.DT = 0 ∧ State.reset.ST = 0 ∧ State.reset.FAULT = none ∧ State.reset.stackDepth = some 16 ∧
  (List.range 80).map State.reset.mem.get =
    [0xF0, 0x90, 0x90, 0x90, 0xF0] ++ [0x20, 0x60, 0x20, 0x20, 0x70] ++ [0xF0, 0x10, 0xF0, 0x80, 0xF0] ++
    [0xF0, 0x10, 0xF0, 0x10, 0xF0] ++ [0x90, 0x90, 0xF0, 0x10, 0x10] ++ [0xF0, 0x80, 0xF0, 0x10, 0xF0] ++
    [0xF0, 0x80, 0xF0, 0x90, 0xF0] ++ [0xF0, 0x10, 0x20, 0x40, 0x40] ++ [0xF0, 0x90, 0xF0, 0x90, 0xF0] ++
    [0xF0, 0x90, 0xF0, 0x10, 0xF0] ++ [0xF0, 0x90, 0xF0, 0x90, 0x90] ++ [0xE0, 0x90, 0xE0, 0x90, 0xE0] ++
    [0xF0, 0x80, 0x80, 0x80, 0xF0] ++ [0xE0, 0x90, 0x90, 0x90, 0xE0] ++ [0xF0, 0x80, 0xF0, 0x80, 0xF0] ++
    [0xF0, 0x80, 0xF0, 0x80, 0x80] ∧
  (∀ a, 80 ≤ a → State.reset.mem.get a = 0)

/-- 70_reset_and_hazards.md R150, R152, 20_memory.md R31: the loader refuses an image of more than 3584 bytes (the spec's decision D23)
and a glyph table that is not 80 bytes (log 19); otherwise the glyphs are at 0, the image verbatim at 0x200, every other byte 0 (D11),
`pc` is 0x200, and the state meets the invariant. -/
def Obligations.BootPlacesGlyphsAndImage : Prop :=
  ∀ (font image : List Byte) (depth : Option Nat),
    (boot font image depth = none ↔ font.length ≠ 80 ∨ 3584 < image.length) ∧
    (∀ s, boot font image depth = some s → s.inv = true ∧ s.pc = 0x200 ∧ s.stackDepth = depth ∧
      (∀ a, a < 80 → font[a]? = some (s.mem.get a)) ∧ (∀ j, j < image.length → image[j]? = some (s.mem.get (0x200 + j))) ∧
      (∀ a, 80 ≤ a → a < 0x200 ∨ 0x200 + image.length ≤ a → s.mem.get a = 0))

/-! ## Faults -/

/-- 60_exceptions.md R131 to R133, R135: the execute phase of every instruction ends in a next state, and it raises exactly the fault,
with exactly the record, that the conditions of those rules give (StackFault and KeyFault are the spec's decisions D6, D7, D19). -/
def Obligations.FaultsAreRaisedExactlyWhenTheTableSays : Prop :=
  ∀ (i : Instr) (s : State), s.FAULT = none → ∃ t, exec i s = .next t ∧ t.FAULT = raisedFault i s

/-- 20_memory.md R34, R39, 60_exceptions.md R131, R135: a MemoryFault of the execute phase names the first access, in the order of R39,
whose offset is above 0xFFF, and there is one exactly when there is such an access. -/
def Obligations.MemoryFaultNamesTheFirstIllegalAccess : Prop :=
  ∀ (i : Instr) (s t : State) (k : AccessKind) (a : Nat), s.FAULT = none → exec i s = .next t →
    (t.FAULT = some (.memory a k) ↔ firstIllegal (dataAccesses i s) = some (k, a))

/-- 60_exceptions.md R136 (a), (b), (f), 40_cycle.md R77: a cycle that faults keeps `pc` at the faulting instruction, the timers and the
stack, and the block never moves again (the spec's decision D10). -/
def Obligations.FaultIsPreciseAndFinal : Prop :=
  ∀ (s t : State) (f : Fault), s.FAULT = none → step s = .next t → t.FAULT = some f →
    t.pc = s.pc ∧ t.DT = s.DT ∧ t.ST = s.ST ∧ t.stack = s.stack ∧ t.stackDepth = s.stackDepth ∧
    ∀ k, Host.Core.run Sys2Proof.core k t = .next t

/-- 60_exceptions.md R136 (c), (d): what a fault leaves alone. A StackFault and a KeyFault change nothing but FAULT; a MemoryFault
leaves everything but what the instruction's pseudocode writes (the spec's decision D10; the footprint is this model's reading,
log 23); every other instruction raises nothing. -/
def Obligations.FaultLeavesTheRestUnchanged : Prop :=
  ∀ (i : Instr) (s t : State) (f : Fault), s.FAULT = none → exec i s = .next t → t.FAULT = some f →
    match i with
    | .call _ | .ret | .skp _ | .sknp _ | .ldVxK _ => t = { s with FAULT := some f }
    | .ldB _ => t = { s with mem := t.mem, FAULT := some f } ∧
        ∀ a, a < s.I.toNat ∨ s.I.toNat + 3 ≤ a → t.mem.get a = s.mem.get a
    | .ldMemVx x => t = { s with mem := t.mem, I := t.I, FAULT := some f } ∧
        ∀ a, a < s.I.toNat ∨ s.I.toNat + (x.val + 1) ≤ a → t.mem.get a = s.mem.get a
    | .ldVxMem x => t = { s with V := t.V, I := t.I, FAULT := some f } ∧ ∀ r, x < r → t.reg r = s.reg r
    | .drw x y n => t = { s with V := t.V, disp := t.disp, FAULT := some f } ∧ (∀ r, r ≠ VF → t.reg r = s.reg r) ∧
        ∀ px py, inFootprint (startColumn (s.reg x)) (s.reg y).toNat n.toNat px py = false → t.disp.pixel px py = s.disp.pixel px py
    | _ => False

/-- 20_memory.md R34, R39, R43 (the memory port is the spec's decision D1): only accesses in range reach the port, and an instruction that
does not fault makes all of its accesses. That one which raises a MemoryFault makes exactly the accesses before the one it faults on is
this model's reading, not a rule: 60_exceptions.md R136 (d) leaves open how much of it took effect (log 25, DEDUCED). -/
def Obligations.TransactionsStopBeforeTheIllegalAccess : Prop :=
  ∀ (i : Instr) (s t : State), s.FAULT = none → exec i s = .next t →
    (∀ p ∈ transactions (dataAccesses i s), p.2 ≤ 0xFFF) ∧
    (t.FAULT = none → transactions (dataAccesses i s) = dataAccesses i s) ∧
    (∀ a k, t.FAULT = some (.memory a k) → ∃ rest, dataAccesses i s = transactions (dataAccesses i s) ++ (k, a) :: rest)

/-- 20_memory.md R39, R43, 70_reset_and_hazards.md R159 (the port is the spec's decision D1): what a cycle does on the memory port. Each
read brings in the byte `Mem` holds at `mem_addr`; in a cycle that does not fault the transactions are, in order, the fetch's accesses
and then the executed instruction's, each at its own address and as the read or write it is, and performing them on the memory before
the cycle gives the memory after it; a halted block makes none. Which reads a cycle that faults makes is this model's reading (log 25,
DEDUCED). -/
def Obligations.PortCarriesTheAccessesOfTheCycle : Prop :=
  (∀ (s : State) (a : BitVec 12) (b : Byte), .read a b ∈ cycleTransactions s → b = s.mem.get a.toNat) ∧
  (∀ s : State, s.FAULT ≠ none → cycleTransactions s = []) ∧
  (∀ s t : State, s.FAULT = none → step s = .next t → t.FAULT = none →
    (cycleTransactions s).map (fun x => (x.memWr, x.memAddr.toNat)) =
      (fetchAccesses s ++ (match decode (wordOf (s.mem.get s.pc.toNat) (s.mem.get (s.pc.toNat + 1))) with
        | some i => dataAccesses i s
        | none => [])).map (fun a => (a.1 == .write, a.2)) ∧
    t.mem = (cycleTransactions s).foldl Memory.afterTransaction s.mem)

/-- 60_exceptions.md R130 (codes and recorded values, the spec's decision D10), 70_reset_and_hazards.md R159 (D1): `halted` is
`FAULT != None`, `fault_code` is the record's code, and `fault_info` the recorded offset or key index, whole, in every state of the
invariant; a StackFault records nothing (log 24). -/
def Obligations.PortsShowTheFaultRecord : Prop :=
  ∀ s : State, s.inv = true →
    (halted s = true ↔ s.FAULT ≠ none) ∧ (s.FAULT = none → faultCode s = 0 ∧ faultInfo s = none) ∧
    (∀ a k, s.FAULT = some (.memory a k) → faultCode s = 1 ∧ ∃ v, faultInfo s = some v ∧ v.toNat = a) ∧
    (s.FAULT = some .stackOverflow → faultCode s = 2 ∧ faultInfo s = none) ∧
    (s.FAULT = some .stackUnderflow → faultCode s = 3 ∧ faultInfo s = none) ∧
    (∀ k, s.FAULT = some (.key k) → faultCode s = 4 ∧ ∃ v, faultInfo s = some v ∧ v.toNat = k.toNat)

/-! ## Frames -/

/-- 10_state.md R12, R25: an instruction changes no general register but its destination, the registers 0 to `x` for `LD Vx,[I]`, and
VF for the six flag writers; in a cycle that faults too (60_exceptions.md R136 (c)). That the others leave VF alone is the spec's
decision D35. -/
def Obligations.OnlyTheNamedGeneralRegistersChange : Prop :=
  ∀ (i : Instr) (s t : State) (r : Reg), exec i s = .next t → writesReg i r = false → t.reg r = s.reg r

/-- 10_state.md R13, R16, R17, R25: `I` changes only in LD I, ADD I, LD F and the bulk transfers; the stack only in CALL and RET; DT and
ST only in LD DT and LD ST before the tick. The parameter and the model's own fields (log 3, 4, 5) change in no execute phase. -/
def Obligations.OnlyTheNamedSpecialRegistersChange : Prop :=
  ∀ (i : Instr) (s t : State), exec i s = .next t →
    (writesI i = false → t.I = s.I) ∧
    ((∀ nnn, i ≠ .call nnn) → i ≠ .ret → t.stack = s.stack) ∧
    ((∀ x, i ≠ .ldDTVx x) → t.DT = s.DT) ∧ ((∀ x, i ≠ .ldSTVx x) → t.ST = s.ST) ∧
    t.stackDepth = s.stackDepth ∧ t.inputs = s.inputs ∧ t.cycle = s.cycle

/-- 20_memory.md R37, R39, 43_index_memory.md R108, R109: every byte reads as before but the three that LD B stores to and the `x + 1`
that LD [I],Vx stores to, from the effective address `I` on; every other instruction leaves all of memory. -/
def Obligations.OnlyTheStoredBytesChange : Prop :=
  ∀ (i : Instr) (s t : State) (a : Nat), exec i s = .next t →
    (match i with
    | .ldB _ => a < s.effAddr 0 ∨ s.effAddr 0 + 3 ≤ a
    | .ldMemVx x => a < s.effAddr 0 ∨ s.effAddr 0 + (x.val + 1) ≤ a
    | _ => True) →
    t.mem.get a = s.mem.get a

/-- 10_state.md R19, R25: the display buffer changes only in CLS and DRW, and in DRW only inside the sprite's footprint. -/
def Obligations.OnlyClsAndDrwChangeTheDisplay : Prop :=
  ∀ (i : Instr) (s t : State), exec i s = .next t →
    (i ≠ .cls → (∀ x y n, i ≠ .drw x y n) → t.disp = s.disp) ∧
    (∀ x y n, i = .drw x y n → ∀ px py,
      inFootprint (startColumn (s.reg x)) (s.reg y).toNat n.toNat px py = false → t.disp.pixel px py = s.disp.pixel px py)

/-- 10_state.md R12: the six flag writers leave VF at 0 or 1, whatever their operands, VF among them (which write wins where VF is also
the destination is the spec's decision D17). -/
def Obligations.FlagWritersLeaveZeroOrOneInVF : Prop :=
  ∀ (i : Instr) (s t : State), s.FAULT = none → exec i s = .next t → t.FAULT = none →
    (match i with
    | .addReg _ _ | .sub _ _ | .shr _ _ | .subn _ _ | .shl _ _ | .drw _ _ _ => True
    | _ => False) →
    t.reg VF = 0 ∨ t.reg VF = 1

/-- The table of 10_state.md R15: only jumps, CALL, RET, the six skips and the blocked wait commit anything but `pc + 2`. -/
def Obligations.OnlyRedirectingInstructionsLeaveTheDefaultAdvance : Prop :=
  ∀ (i : Instr) (s t : State), s.FAULT = none → exec i s = .next t → t.FAULT = none →
    match i with
    | .jp nnn | .call nnn => t.pc.toNat = nnn.toNat
    | .ret => s.stackEntry (s.sp - 1) = some t.pc
    | .jpV0 nnn => t.pc.toNat = (s.reg 0).toNat + nnn.toNat
    | .seImm _ _ | .sneImm _ _ | .seReg _ _ | .sneReg _ _ | .skp _ | .sknp _ => t.pc = s.pc + 4 ∨ t.pc = s.pc + 2
    | .ldVxK _ => t.pc = s.pc ∨ t.pc = s.pc + 2
    | _ => t.pc = s.pc + 2

/-! ## Whole-machine rules -/

/-- 20_memory.md R42: a store is seen by the very next fetch, whether it covers both bytes of the next word, one of them or neither: after
a cycle on LD [I],Vx or LD B,Vx that does not fault, each byte of the word fetched at `pc + 2` is the byte stored there, or else what
memory held. (The ascending order of the dump is the spec's decision D27.) -/
def Obligations.StoreIsSeenByTheNextFetch : Prop :=
  (∀ (s : State) (x : Reg), s.FAULT = none → s.pc.toNat ≤ 0xFFC →
    decode (wordOf (s.mem.get s.pc.toNat) (s.mem.get (s.pc.toNat + 1))) = some (.ldMemVx x) → s.I.toNat + x.val ≤ 0xFFF →
    ∃ t hi lo, step s = .next t ∧ t.pc.toNat = s.pc.toNat + 2 ∧ fetch t = .ok (wordOf hi lo) ∧
      (∀ k : Reg, k ≤ x → s.I.toNat + k.val = s.pc.toNat + 2 → hi = s.reg k) ∧
      (∀ k : Reg, k ≤ x → s.I.toNat + k.val = s.pc.toNat + 3 → lo = s.reg k) ∧
      (s.pc.toNat + 2 < s.I.toNat ∨ s.I.toNat + x.val < s.pc.toNat + 2 → hi = s.mem.get (s.pc.toNat + 2)) ∧
      (s.pc.toNat + 3 < s.I.toNat ∨ s.I.toNat + x.val < s.pc.toNat + 3 → lo = s.mem.get (s.pc.toNat + 3))) ∧
  (∀ (s : State) (x : Reg), s.FAULT = none → s.pc.toNat ≤ 0xFFC →
    decode (wordOf (s.mem.get s.pc.toNat) (s.mem.get (s.pc.toNat + 1))) = some (.ldB x) → s.I.toNat + 2 ≤ 0xFFF →
    ∃ t hi lo, step s = .next t ∧ t.pc.toNat = s.pc.toNat + 2 ∧ fetch t = .ok (wordOf hi lo) ∧
      (s.I.toNat = s.pc.toNat + 2 → hi.toNat = (s.reg x).toNat / 100 ∧ lo.toNat = (s.reg x).toNat / 10 % 10) ∧
      (s.I.toNat + 1 = s.pc.toNat + 2 → hi.toNat = (s.reg x).toNat / 10 % 10 ∧ lo.toNat = (s.reg x).toNat % 10) ∧
      (s.I.toNat + 2 = s.pc.toNat + 2 → hi.toNat = (s.reg x).toNat % 10) ∧
      (s.I.toNat = s.pc.toNat + 3 → lo.toNat = (s.reg x).toNat / 100) ∧
      (s.pc.toNat + 2 < s.I.toNat ∨ s.I.toNat + 2 < s.pc.toNat + 2 → hi = s.mem.get (s.pc.toNat + 2)) ∧
      (s.pc.toNat + 3 < s.I.toNat ∨ s.I.toNat + 2 < s.pc.toNat + 3 → lo = s.mem.get (s.pc.toNat + 3)))

/-- 10_state.md R20, R25, 42_alu.md R102: the host's key levels and random bytes reach the state only through SKP, SKNP, LD Vx,K and
RND: with any other script in the model's field `inputs` (log 3) every other instruction does the same. Where LD B, LD [I],Vx, LD Vx,[I]
or DRW faults, that the state 60_exceptions.md R136 (d) leaves unspecified is also the same under both scripts is this model's choice,
not a rule: its free values depend on the cycle number and the place alone (log 2, DEDUCED). -/
def Obligations.InputsReachOnlyKeyAndRandomInstructions : Prop :=
  ∀ (i : Instr) (s t : State) (script : List Input),
    (match i with
    | .skp _ | .sknp _ | .ldVxK _ | .rnd _ _ => False
    | _ => True) →
    exec i s = .next t → exec i { s with inputs := script } = .next { t with inputs := script }

/-- 45_keypad_timers.md R122, 40_cycle.md R75: while the awaited key is up the wait repeats, each repetition a full cycle in which only
the timers (the spec's decision D3) and the model's own fields move (log 3, log 4); the first cycle with the key down advances by 2
and writes no register. -/
def Obligations.BlockedWaitRepeatsUntilTheKeyIsDown : Prop :=
  ∀ (k : Nat) (s : State) (x : Reg), s.FAULT = none → s.pc.toNat ≤ 0xFFE →
    decode (wordOf (s.mem.get s.pc.toNat) (s.mem.get (s.pc.toNat + 1))) = some (.ldVxK x) → (s.reg x).toNat ≤ 15 →
    k ≤ s.inputs.length → (∀ j inp, j < k → s.inputs[j]? = some inp → inp.key.getLsbD (s.reg x).toNat = false) →
    ∃ t, Host.Core.run Sys2Proof.core k s = .next t ∧ t.DT.toNat = s.DT.toNat - k ∧ t.ST.toNat = s.ST.toNat - k ∧
      t = { s with DT := t.DT, ST := t.ST, inputs := s.inputs.drop k, cycle := s.cycle + k } ∧
      ∀ inp, s.inputs[k]? = some inp → inp.key.getLsbD (s.reg x).toNat = true →
        ∃ u, step t = .next u ∧ u.pc = s.pc + 2 ∧ u.V = s.V ∧ u.DT.toNat = s.DT.toNat - (k + 1)

/-- 44_display.md R116, R117 items 8 to 10: drawing a sprite twice at the same place restores the buffer, and the second draw reports
VF = 1 exactly when the sprite has a set bit on a pixel of the buffer that was 0 before the first draw. Item 10 omits that condition;
R116 gives it (log 15; the geometry is the spec's decision D18). The coordinate registers are not VF, which the first draw overwrites. -/
def Obligations.DrawingTwiceRestoresTheBuffer : Prop :=
  ∀ (s : State) (x y : Reg) (n : Nibble), x ≠ VF → y ≠ VF → n = 0 ∨ s.I.toNat + n.toNat ≤ 0x1000 →
    ∃ t u, exec (.drw x y n) s = .next t ∧ exec (.drw x y n) t = .next u ∧ u.disp = s.disp ∧
      (u.reg VF = 1 ↔ ∃ px py, spriteBit s (startColumn (s.reg x)) (s.reg y).toNat n.toNat px py = true ∧ s.disp.pixel px py = false)

/-- 41_flow.md R81, R83, 10_state.md R16: a RET undoes the CALL before it and lands after the CALL, whatever the stack held, when the
stack was not full (the spec's decision D6). -/
def Obligations.ReturnComesBackAfterTheCall : Prop :=
  ∀ (s : State) (nnn : Addr), s.stackDepth ≠ some s.sp →
    ∃ t u, exec (.call nnn) s = .next t ∧ exec .ret t = .next u ∧ u = { s with pc := s.pc + 2 }

/-- 43_index_memory.md R109, R110: a bulk load from where a bulk dump stored gives the dumped registers back, whatever the registers
held in between. -/
def Obligations.BulkLoadRestoresWhatBulkDumpStored : Prop :=
  ∀ (s : State) (x : Reg) (V' : Vector Byte 16), s.I.toNat + x.val ≤ 0xFFF →
    ∃ t u, exec (.ldMemVx x) s = .next t ∧ exec (.ldVxMem x) { t with I := s.I, V := V' } = .next u ∧
      (∀ r, r ≤ x → u.reg r = s.reg r) ∧ (∀ r, x < r → u.reg r = V'[r]) ∧ u.mem = t.mem

/-- The canonical form of memory (log 7) is one: canonical memories that read the same at every offset are equal data. -/
def Obligations.CanonicalMemoriesWithTheSameBytesAreEqual : Prop :=
  ∀ m m' : Memory, m.wf = true → m'.wf = true → (∀ a, m.get a = m'.get a) → m = m'

/-! ## Control transfer and skips -/

/-- 41_flow.md R82: JP commits its address and changes nothing else; a jump to itself repeats with the timers ticking; a jump to 0xFFF
makes the next fetch raise MemoryFault(0x1000, fetch). -/
def Obligations.JumpCommitsItsAddress : Prop :=
  (∀ (nnn : Addr) (s : State), ∃ t, exec (.jp nnn) s = .next t ∧ t = { s with pc := t.pc } ∧ t.pc.toNat = nnn.toNat ∧
    (nnn = 0xFFF → fetch t = .error (.memory 0x1000 .fetch))) ∧
  (∀ (nnn : Addr) (s : State), s.FAULT = none → s.pc.toNat ≤ 0xFFE → s.pc.toNat = nnn.toNat →
    decode (wordOf (s.mem.get s.pc.toNat) (s.mem.get (s.pc.toNat + 1))) = some (.jp nnn) →
    ∃ t, step s = .next t ∧ t.pc = s.pc ∧ t.DT.toNat = s.DT.toNat - 1 ∧ t.ST.toNat = s.ST.toNat - 1 ∧ t.mem = s.mem)

/-- 41_flow.md R88: the indexed jump commits `V[0] + nnn` without truncation to 12 bits and changes nothing else; a sum above 0xFFE
makes the next fetch raise, on the sum itself or, at 0xFFF, on 0x1000 (20_memory.md R36, 40_cycle.md R71; the spec's decision D33,
log 10). -/
def Obligations.IndexedJumpAddsRegisterZero : Prop :=
  ∀ (nnn : Addr) (s : State), ∃ t, exec (.jpV0 nnn) s = .next t ∧ t = { s with pc := t.pc } ∧
    t.pc.toNat = (s.reg 0).toNat + nnn.toNat ∧
    (0xFFE < (s.reg 0).toNat + nnn.toNat → ∃ a, fetch t = .error (.memory a .fetch) ∧ a = max ((s.reg 0).toNat + nnn.toNat) 0x1000)

/-- 41_flow.md R83: with room on the stack CALL pushes `pc + 2` and commits its address; with `sp = STACK_DEPTH` it raises
StackFault(overflow) and changes nothing else (the spec's decision D6). -/
def Obligations.CallPushesTheReturnAddress : Prop :=
  ∀ (nnn : Addr) (s : State),
    (s.stackDepth ≠ some s.sp → ∃ t, exec (.call nnn) s = .next t ∧ t = { s with stack := t.stack, pc := t.pc } ∧
      t.pc.toNat = nnn.toNat ∧ t.sp = s.sp + 1 ∧ t.stackEntry s.sp = some (s.pc + 2) ∧
      ∀ k, k < s.sp → t.stackEntry k = s.stackEntry k) ∧
    (s.stackDepth = some s.sp → exec (.call nnn) s = .next { s with FAULT := some .stackOverflow })

/-- 41_flow.md R81: RET commits the value it pops, with no further advance; on an empty stack it raises StackFault(underflow) and
changes nothing else (the spec's decision D7). -/
def Obligations.ReturnCommitsThePoppedValue : Prop :=
  ∀ s : State,
    (s.sp ≠ 0 → ∃ t, exec .ret s = .next t ∧ t = { s with stack := t.stack, pc := t.pc } ∧ t.sp = s.sp - 1 ∧
      s.stackEntry (s.sp - 1) = some t.pc ∧ ∀ k, k < t.sp → t.stackEntry k = s.stackEntry k) ∧
    (s.sp = 0 → exec .ret s = .next { s with FAULT := some .stackUnderflow })

/-- 41_flow.md R84, R85: SE and SNE with an immediate compare all 8 bits and commit `pc + 4` or `pc + 2`; nothing else changes. -/
def Obligations.ImmediateSkips : Prop :=
  ∀ (x : Reg) (kk : Byte) (s : State),
    (∃ t, exec (.seImm x kk) s = .next t ∧ t = { s with pc := t.pc } ∧
      ((s.reg x).toNat = kk.toNat → t.pc = s.pc + 4) ∧ ((s.reg x).toNat ≠ kk.toNat → t.pc = s.pc + 2)) ∧
    (∃ t, exec (.sneImm x kk) s = .next t ∧ t = { s with pc := t.pc } ∧
      ((s.reg x).toNat ≠ kk.toNat → t.pc = s.pc + 4) ∧ ((s.reg x).toNat = kk.toNat → t.pc = s.pc + 2))

/-- 41_flow.md R86, R87: SE and SNE with a register commit `pc + 4` or `pc + 2` and change nothing else; every word of families 5 and 9
is one of them, whatever its low nibble (30_encoding.md R58, the spec's decision D15). -/
def Obligations.RegisterSkips : Prop :=
  (∀ (x y : Reg) (s : State),
    (∃ t, exec (.seReg x y) s = .next t ∧ t = { s with pc := t.pc } ∧
      ((s.reg x).toNat = (s.reg y).toNat → t.pc = s.pc + 4) ∧ ((s.reg x).toNat ≠ (s.reg y).toNat → t.pc = s.pc + 2)) ∧
    (∃ t, exec (.sneReg x y) s = .next t ∧ t = { s with pc := t.pc } ∧
      ((s.reg x).toNat ≠ (s.reg y).toNat → t.pc = s.pc + 4) ∧ ((s.reg x).toNat = (s.reg y).toNat → t.pc = s.pc + 2))) ∧
  (∀ w : Word, fieldOp w = 0x5 → decode w = some (.seReg (fieldX w) (fieldY w))) ∧
  (∀ w : Word, fieldOp w = 0x9 → decode w = some (.sneReg (fieldX w) (fieldY w)))

/-! ## Registers and ALU -/

/-- 42_alu.md R91, R93: the immediate load and the copy write `V[x]` and nothing else; neither writes VF unless `x = 15`. -/
def Obligations.LoadImmediateAndCopy : Prop :=
  (∀ (x : Reg) (kk : Byte) (s : State), ∃ t, exec (.ldImm x kk) s = .next t ∧ t = { s with V := t.V, pc := s.pc + 2 } ∧
    t.reg x = kk ∧ ∀ r, r ≠ x → t.reg r = s.reg r) ∧
  (∀ (x y : Reg) (s : State), ∃ t, exec (.ldReg x y) s = .next t ∧ t = { s with V := t.V, pc := s.pc + 2 } ∧
    t.reg x = s.reg y ∧ ∀ r, r ≠ x → t.reg r = s.reg r)

/-- 42_alu.md R92: the immediate add is modulo 256 and writes `V[x]` and nothing else; that VF is not written is the spec's decision
D35. -/
def Obligations.AddImmediateWrapsAndWritesNoFlag : Prop :=
  ∀ (x : Reg) (kk : Byte) (s : State), ∃ t, exec (.addImm x kk) s = .next t ∧ t = { s with V := t.V, pc := s.pc + 2 } ∧
    (t.reg x).toNat = ((s.reg x).toNat + kk.toNat) % 256 ∧ ∀ r, r ≠ x → t.reg r = s.reg r

/-- 42_alu.md R94 to R96: OR, AND and XOR bit by bit into `V[x]`; that VF is not written is the spec's decision D35. -/
def Obligations.LogicIsBitwiseAndWritesNoFlag : Prop :=
  ∀ (x y : Reg) (s : State),
    (∃ t, exec (.or x y) s = .next t ∧ t = { s with V := t.V, pc := s.pc + 2 } ∧ (∀ r, r ≠ x → t.reg r = s.reg r) ∧
      ∀ j, j < 8 → (t.reg x).getLsbD j = ((s.reg x).getLsbD j || (s.reg y).getLsbD j)) ∧
    (∃ t, exec (.and x y) s = .next t ∧ t = { s with V := t.V, pc := s.pc + 2 } ∧ (∀ r, r ≠ x → t.reg r = s.reg r) ∧
      ∀ j, j < 8 → (t.reg x).getLsbD j = ((s.reg x).getLsbD j && (s.reg y).getLsbD j)) ∧
    (∃ t, exec (.xor x y) s = .next t ∧ t = { s with V := t.V, pc := s.pc + 2 } ∧ (∀ r, r ≠ x → t.reg r = s.reg r) ∧
      ∀ j, j < 8 → (t.reg x).getLsbD j = ((s.reg x).getLsbD j ^^ (s.reg y).getLsbD j))

/-- 42_alu.md R97: the sum modulo 256 into `V[x]`, VF = 1 iff the untruncated sum exceeds 255, both from the values before the
instruction; where `x = 15` VF holds the flag and the sum is lost (R90, the spec's decision D17). -/
def Obligations.AddRegistersSetsTheCarry : Prop :=
  ∀ (x y : Reg) (s : State), ∃ t, exec (.addReg x y) s = .next t ∧ t = { s with V := t.V, pc := s.pc + 2 } ∧
    (x ≠ 15 → (t.reg x).toNat = ((s.reg x).toNat + (s.reg y).toNat) % 256) ∧
    ((s.reg x).toNat + (s.reg y).toNat > 255 → t.reg 15 = 1) ∧ ((s.reg x).toNat + (s.reg y).toNat ≤ 255 → t.reg 15 = 0) ∧
    ∀ r, r ≠ x → r ≠ 15 → t.reg r = s.reg r

/-- 42_alu.md R98, R100: SUB stores `(x - y) mod 256`, SUBN `(y - x) mod 256`, and both set VF = 1 iff `V[x] > V[y]` before the
instruction; where `x = 15` VF holds the flag (R90, the spec's decision D17). -/
def Obligations.SubtractsShareTheGreaterTest : Prop :=
  ∀ (x y : Reg) (s : State),
    (∃ t, exec (.sub x y) s = .next t ∧ t = { s with V := t.V, pc := s.pc + 2 } ∧
      (x ≠ 15 → ((t.reg x).toNat : Int) = (((s.reg x).toNat : Int) - (s.reg y).toNat) % 256) ∧
      ((s.reg x).toNat > (s.reg y).toNat → t.reg 15 = 1) ∧ ((s.reg x).toNat ≤ (s.reg y).toNat → t.reg 15 = 0) ∧
      ∀ r, r ≠ x → r ≠ 15 → t.reg r = s.reg r) ∧
    (∃ t, exec (.subn x y) s = .next t ∧ t = { s with V := t.V, pc := s.pc + 2 } ∧
      (x ≠ 15 → ((t.reg x).toNat : Int) = (((s.reg y).toNat : Int) - (s.reg x).toNat) % 256) ∧
      ((s.reg x).toNat > (s.reg y).toNat → t.reg 15 = 1) ∧ ((s.reg x).toNat ≤ (s.reg y).toNat → t.reg 15 = 0) ∧
      ∀ r, r ≠ x → r ≠ 15 → t.reg r = s.reg r)

/-- 42_alu.md R99, R101: the shifts read `V[y]`, store `b div 2` or `2*b mod 256` into `V[x]`, and leave the bit shifted out in VF;
where `x = 15` VF holds that bit (R90, the spec's decision D17). -/
def Obligations.ShiftsReadTheSecondRegister : Prop :=
  ∀ (x y : Reg) (s : State),
    (∃ t, exec (.shr x y) s = .next t ∧ t = { s with V := t.V, pc := s.pc + 2 } ∧
      (x ≠ 15 → (t.reg x).toNat = (s.reg y).toNat / 2) ∧ (t.reg 15).toNat = (s.reg y).toNat % 2 ∧
      ∀ r, r ≠ x → r ≠ 15 → t.reg r = s.reg r) ∧
    (∃ t, exec (.shl x y) s = .next t ∧ t = { s with V := t.V, pc := s.pc + 2 } ∧
      (x ≠ 15 → (t.reg x).toNat = (2 * (s.reg y).toNat) % 256) ∧ (t.reg 15).toNat = (s.reg y).toNat / 128 ∧
      ∀ r, r ≠ x → r ≠ 15 → t.reg r = s.reg r)

/-- 42_alu.md R102: RND writes the cycle's random byte under the mask; with `kk` 0 the result is 0 and with `kk` 0xFF it is the byte,
whatever it is (a free input, the spec's decision D20; log 3). -/
def Obligations.RandomByteIsMasked : Prop :=
  ∀ (x : Reg) (kk : Byte) (s : State), ∃ t, exec (.rnd x kk) s = .next t ∧ t = { s with V := t.V, pc := s.pc + 2 } ∧
    (∀ j, j < 8 → (t.reg x).getLsbD j = (s.sample.rnd.getLsbD j && kk.getLsbD j)) ∧
    (kk = 0 → t.reg x = 0) ∧ (kk = 0xFF → t.reg x = s.sample.rnd) ∧ ∀ r, r ≠ x → t.reg r = s.reg r

/-! ## Index register and memory -/

/-- 43_index_memory.md R105: LD I writes the zero-extended address to `I` and nothing else. -/
def Obligations.LoadIndex : Prop :=
  ∀ (nnn : Addr) (s : State), ∃ t, exec (.ldI nnn) s = .next t ∧ t = { s with I := t.I, pc := s.pc + 2 } ∧ t.I.toNat = nnn.toNat

/-- 43_index_memory.md R106, R107: ADD I adds modulo 65536 (the spec's decision D8) and writes no flag (D35); LD F multiplies all 8 bits
of `V[x]` by 5 (D26). -/
def Obligations.IndexAddWrapsAndGlyphLookupTimesFive : Prop :=
  ∀ (x : Reg) (s : State),
    (∃ t, exec (.addI x) s = .next t ∧ t = { s with I := t.I, pc := s.pc + 2 } ∧
      t.I.toNat = (s.I.toNat + (s.reg x).toNat) % 65536) ∧
    (∃ t, exec (.ldF x) s = .next t ∧ t = { s with I := t.I, pc := s.pc + 2 } ∧ t.I.toNat = (s.reg x).toNat * 5)

/-- 43_index_memory.md R108: LD B stores the hundreds, tens and ones digits at `I`, `I+1`, `I+2`; `I` and every other byte are
unchanged. -/
def Obligations.BcdStoreWritesThreeDigits : Prop :=
  ∀ (x : Reg) (s : State), s.I.toNat + 2 ≤ 0xFFF →
    ∃ t h d o, exec (.ldB x) s = .next t ∧ t = { s with mem := t.mem, pc := s.pc + 2 } ∧
      t.mem.get s.I.toNat = h ∧ t.mem.get (s.I.toNat + 1) = d ∧ t.mem.get (s.I.toNat + 2) = o ∧
      h.toNat ≤ 2 ∧ d.toNat ≤ 9 ∧ o.toNat ≤ 9 ∧ 100 * h.toNat + 10 * d.toNat + o.toNat = (s.reg x).toNat ∧
      ∀ a, a < s.I.toNat ∨ s.I.toNat + 3 ≤ a → t.mem.get a = s.mem.get a

/-- 43_index_memory.md R109: LD [I],Vx stores register `k` at `I + k` for `k` from 0 to `x` (ascending, the spec's decision D27), leaves
`I` incremented by `x + 1`, and changes no register and no other byte. -/
def Obligations.BulkDumpStoresRegistersAndMovesIndex : Prop :=
  ∀ (x : Reg) (s : State), s.I.toNat + x.val ≤ 0xFFF →
    ∃ t, exec (.ldMemVx x) s = .next t ∧ t = { s with mem := t.mem, I := t.I, pc := s.pc + 2 } ∧
      t.I.toNat = s.I.toNat + (x.val + 1) ∧ (∀ k : Reg, k ≤ x → t.mem.get (s.I.toNat + k.val) = s.reg k) ∧
      ∀ a, a < s.I.toNat ∨ s.I.toNat + (x.val + 1) ≤ a → t.mem.get a = s.mem.get a

/-- 43_index_memory.md R110: LD Vx,[I] loads register `k` from `I + k` for `k` from 0 to `x` (ascending, the spec's decision D27), leaves
`I` incremented by `x + 1`, and changes no other register and no memory. -/
def Obligations.BulkLoadReadsRegistersAndMovesIndex : Prop :=
  ∀ (x : Reg) (s : State), s.I.toNat + x.val ≤ 0xFFF →
    ∃ t, exec (.ldVxMem x) s = .next t ∧ t = { s with V := t.V, I := t.I, pc := s.pc + 2 } ∧
      t.I.toNat = s.I.toNat + (x.val + 1) ∧ (∀ k : Reg, k ≤ x → t.reg k = s.mem.get (s.I.toNat + k.val)) ∧
      ∀ r, x < r → t.reg r = s.reg r

/-! ## Display -/

/-- 44_display.md R115: CLS leaves every pixel 0 and changes nothing else; VF is not written. -/
def Obligations.ClearScreenClearsEveryPixel : Prop :=
  ∀ s : State, ∃ t, exec .cls s = .next t ∧ t = { s with disp := t.disp, pc := s.pc + 2 } ∧
    (∀ px py, t.disp.pixel px py = false) ∧ ((∀ px py, s.disp.pixel px py = false) → t.disp = s.disp)

/-- 44_display.md R116, R117: where its rows can be read, DRW inverts exactly the pixels of the grid under a set sprite bit, from column
`V[x]` (0 if that is 64 or more) and row `V[y]`, bit 7 leftmost, and leaves VF = 1 iff one of them was 1 before, else 0; the
coordinates are the values before VF is written, `n = 0` draws nothing, and no other register, `I` or memory changes (geometry and
bit order are the spec's decision D18). -/
def Obligations.DrawInvertsTheSpritePixelsAndReportsCollision : Prop :=
  ∀ (x y : Reg) (n : Nibble) (s : State), n = 0 ∨ s.I.toNat + n.toNat ≤ 0x1000 →
    ∃ t sx sy, exec (.drw x y n) s = .next t ∧ t = { s with V := t.V, disp := t.disp, pc := s.pc + 2 } ∧
      sx = (if 64 ≤ (s.reg x).toNat then 0 else (s.reg x).toNat) ∧ sy = (s.reg y).toNat ∧
      (∀ px py, t.disp.pixel px py = (s.disp.pixel px py ^^ spriteBit s sx sy n.toNat px py)) ∧
      ((∃ px py, spriteBit s sx sy n.toNat px py = true ∧ s.disp.pixel px py = true) → t.reg VF = 1) ∧
      ((∀ px py, spriteBit s sx sy n.toNat px py = true → s.disp.pixel px py = false) → t.reg VF = 0) ∧
      ∀ r, r ≠ VF → t.reg r = s.reg r

/-! ## Keys and timers -/

/-- 45_keypad_timers.md R119 to R121: SKP and SKNP test the level, in this cycle's sample, of the key whose index is the value of
`V[x]`; they commit `pc + 4` or `pc + 2` and change nothing else; an index above 15 raises KeyFault (the spec's decision D19). -/
def Obligations.KeySkipsTestTheNamedKey : Prop :=
  ∀ (x : Reg) (s : State),
    ((s.reg x).toNat ≤ 15 →
      (∃ t, exec (.skp x) s = .next t ∧ t = { s with pc := t.pc } ∧
        (s.sample.key.getLsbD (s.reg x).toNat = true → t.pc = s.pc + 4) ∧
        (s.sample.key.getLsbD (s.reg x).toNat = false → t.pc = s.pc + 2)) ∧
      (∃ t, exec (.sknp x) s = .next t ∧ t = { s with pc := t.pc } ∧
        (s.sample.key.getLsbD (s.reg x).toNat = false → t.pc = s.pc + 4) ∧
        (s.sample.key.getLsbD (s.reg x).toNat = true → t.pc = s.pc + 2))) ∧
    (16 ≤ (s.reg x).toNat → exec (.skp x) s = .next { s with FAULT := some (.key (s.reg x)) } ∧
      exec (.sknp x) s = .next { s with FAULT := some (.key (s.reg x)) })

/-- 45_keypad_timers.md R119, R122: LD Vx,K completes with `pc + 2` when the key named by `V[x]` is down in this cycle's sample and
leaves `pc` when it is up; it writes no register; an index above 15 raises KeyFault (the spec's decision D19). -/
def Obligations.WaitForKeyBlocksOnTheNamedKey : Prop :=
  ∀ (x : Reg) (s : State),
    ((s.reg x).toNat ≤ 15 → ∃ t, exec (.ldVxK x) s = .next t ∧ t = { s with pc := t.pc } ∧
      (s.sample.key.getLsbD (s.reg x).toNat = true → t.pc = s.pc + 2) ∧
      (s.sample.key.getLsbD (s.reg x).toNat = false → t.pc = s.pc)) ∧
    (16 ≤ (s.reg x).toNat → exec (.ldVxK x) s = .next { s with FAULT := some (.key (s.reg x)) })

/-- 45_keypad_timers.md R123 to R125: LD Vx,DT reads the delay timer before this cycle's tick; LD DT,Vx and LD ST,Vx write a timer; at
the end of a whole cycle the written timer holds the value less one, saturating (40_cycle.md R75, the spec's decision D4). Which
timer forms exist is the spec's decision D25. -/
def Obligations.TimerLoadsAndStores : Prop :=
  (∀ (x : Reg) (s : State),
    (∃ t, exec (.ldVxDT x) s = .next t ∧ t = { s with V := t.V, pc := s.pc + 2 } ∧ t.reg x = s.DT ∧
      ∀ r, r ≠ x → t.reg r = s.reg r) ∧
    exec (.ldDTVx x) s = .next { s with DT := s.reg x, pc := s.pc + 2 } ∧
    exec (.ldSTVx x) s = .next { s with ST := s.reg x, pc := s.pc + 2 }) ∧
  (∀ (x : Reg) (s : State), s.FAULT = none → s.pc.toNat ≤ 0xFFE →
    decode (wordOf (s.mem.get s.pc.toNat) (s.mem.get (s.pc.toNat + 1))) = some (.ldVxDT x) →
    ∃ t, step s = .next t ∧ t.reg x = s.DT ∧ t.DT.toNat = s.DT.toNat - 1) ∧
  (∀ (x : Reg) (s : State), s.FAULT = none → s.pc.toNat ≤ 0xFFE →
    decode (wordOf (s.mem.get s.pc.toNat) (s.mem.get (s.pc.toNat + 1))) = some (.ldDTVx x) →
    ∃ t, step s = .next t ∧ t.DT.toNat = (s.reg x).toNat - 1 ∧ t.ST.toNat = s.ST.toNat - 1) ∧
  (∀ (x : Reg) (s : State), s.FAULT = none → s.pc.toNat ≤ 0xFFE →
    decode (wordOf (s.mem.get s.pc.toNat) (s.mem.get (s.pc.toNat + 1))) = some (.ldSTVx x) →
    ∃ t, step s = .next t ∧ t.ST.toNat = (s.reg x).toNat - 1 ∧ t.DT.toNat = s.DT.toNat - 1)
end

