-- ==== Sys2Proof/Laws/State.lean ====
section
/-! SUPPORT. What each update of State does to each field, and the reads that an update leaves alone; all true by `rfl`. -/

namespace Sys2Proof.Machine

/-! ## `setReg` -/

@[simp] theorem setReg_V (s : State) (x : Reg) (v : Byte) : (s.setReg x v).V = s.V.set x v := rfl
@[simp] theorem setReg_I (s : State) (x : Reg) (v : Byte) : (s.setReg x v).I = s.I := rfl
@[simp] theorem setReg_pc (s : State) (x : Reg) (v : Byte) : (s.setReg x v).pc = s.pc := rfl
@[simp] theorem setReg_stack (s : State) (x : Reg) (v : Byte) : (s.setReg x v).stack = s.stack := rfl
@[simp] theorem setReg_DT (s : State) (x : Reg) (v : Byte) : (s.setReg x v).DT = s.DT := rfl
@[simp] theorem setReg_ST (s : State) (x : Reg) (v : Byte) : (s.setReg x v).ST = s.ST := rfl
@[simp] theorem setReg_disp (s : State) (x : Reg) (v : Byte) : (s.setReg x v).disp = s.disp := rfl
@[simp] theorem setReg_mem (s : State) (x : Reg) (v : Byte) : (s.setReg x v).mem = s.mem := rfl
@[simp] theorem setReg_FAULT (s : State) (x : Reg) (v : Byte) : (s.setReg x v).FAULT = s.FAULT := rfl
@[simp] theorem setReg_inputs (s : State) (x : Reg) (v : Byte) : (s.setReg x v).inputs = s.inputs := rfl
@[simp] theorem setReg_cycle (s : State) (x : Reg) (v : Byte) : (s.setReg x v).cycle = s.cycle := rfl
@[simp] theorem setReg_stackDepth (s : State) (x : Reg) (v : Byte) : (s.setReg x v).stackDepth = s.stackDepth := rfl
@[simp] theorem setReg_sample (s : State) (x : Reg) (v : Byte) : (s.setReg x v).sample = s.sample := rfl
@[simp] theorem setReg_effAddr (s : State) (x : Reg) (v : Byte) (k : Nat) : (s.setReg x v).effAddr k = s.effAddr k := rfl
@[simp] theorem setReg_sp (s : State) (x : Reg) (v : Byte) : (s.setReg x v).sp = s.sp := rfl

/-! ## `setI` -/

@[simp] theorem setI_V (s : State) (v : Word) : (s.setI v).V = s.V := rfl
@[simp] theorem setI_I (s : State) (v : Word) : (s.setI v).I = v := rfl
@[simp] theorem setI_pc (s : State) (v : Word) : (s.setI v).pc = s.pc := rfl
@[simp] theorem setI_stack (s : State) (v : Word) : (s.setI v).stack = s.stack := rfl
@[simp] theorem setI_DT (s : State) (v : Word) : (s.setI v).DT = s.DT := rfl
@[simp] theorem setI_ST (s : State) (v : Word) : (s.setI v).ST = s.ST := rfl
@[simp] theorem setI_disp (s : State) (v : Word) : (s.setI v).disp = s.disp := rfl
@[simp] theorem setI_mem (s : State) (v : Word) : (s.setI v).mem = s.mem := rfl
@[simp] theorem setI_FAULT (s : State) (v : Word) : (s.setI v).FAULT = s.FAULT := rfl
@[simp] theorem setI_inputs (s : State) (v : Word) : (s.setI v).inputs = s.inputs := rfl
@[simp] theorem setI_cycle (s : State) (v : Word) : (s.setI v).cycle = s.cycle := rfl
@[simp] theorem setI_stackDepth (s : State) (v : Word) : (s.setI v).stackDepth = s.stackDepth := rfl
@[simp] theorem setI_reg (s : State) (v : Word) (r : Reg) : (s.setI v).reg r = s.reg r := rfl
@[simp] theorem setI_sample (s : State) (v : Word) : (s.setI v).sample = s.sample := rfl
@[simp] theorem setI_sp (s : State) (v : Word) : (s.setI v).sp = s.sp := rfl

/-! ## `setPc` -/

@[simp] theorem setPc_V (s : State) (v : Word) : (s.setPc v).V = s.V := rfl
@[simp] theorem setPc_I (s : State) (v : Word) : (s.setPc v).I = s.I := rfl
@[simp] theorem setPc_pc (s : State) (v : Word) : (s.setPc v).pc = v := rfl
@[simp] theorem setPc_stack (s : State) (v : Word) : (s.setPc v).stack = s.stack := rfl
@[simp] theorem setPc_DT (s : State) (v : Word) : (s.setPc v).DT = s.DT := rfl
@[simp] theorem setPc_ST (s : State) (v : Word) : (s.setPc v).ST = s.ST := rfl
@[simp] theorem setPc_disp (s : State) (v : Word) : (s.setPc v).disp = s.disp := rfl
@[simp] theorem setPc_mem (s : State) (v : Word) : (s.setPc v).mem = s.mem := rfl
@[simp] theorem setPc_FAULT (s : State) (v : Word) : (s.setPc v).FAULT = s.FAULT := rfl
@[simp] theorem setPc_inputs (s : State) (v : Word) : (s.setPc v).inputs = s.inputs := rfl
@[simp] theorem setPc_cycle (s : State) (v : Word) : (s.setPc v).cycle = s.cycle := rfl
@[simp] theorem setPc_stackDepth (s : State) (v : Word) : (s.setPc v).stackDepth = s.stackDepth := rfl
@[simp] theorem setPc_reg (s : State) (v : Word) (r : Reg) : (s.setPc v).reg r = s.reg r := rfl
@[simp] theorem setPc_sample (s : State) (v : Word) : (s.setPc v).sample = s.sample := rfl
@[simp] theorem setPc_effAddr (s : State) (v : Word) (k : Nat) : (s.setPc v).effAddr k = s.effAddr k := rfl
@[simp] theorem setPc_sp (s : State) (v : Word) : (s.setPc v).sp = s.sp := rfl

/-! ## `setStack` -/

@[simp] theorem setStack_V (s : State) (v : List Word) : (s.setStack v).V = s.V := rfl
@[simp] theorem setStack_I (s : State) (v : List Word) : (s.setStack v).I = s.I := rfl
@[simp] theorem setStack_pc (s : State) (v : List Word) : (s.setStack v).pc = s.pc := rfl
@[simp] theorem setStack_stack (s : State) (v : List Word) : (s.setStack v).stack = v := rfl
@[simp] theorem setStack_DT (s : State) (v : List Word) : (s.setStack v).DT = s.DT := rfl
@[simp] theorem setStack_ST (s : State) (v : List Word) : (s.setStack v).ST = s.ST := rfl
@[simp] theorem setStack_disp (s : State) (v : List Word) : (s.setStack v).disp = s.disp := rfl
@[simp] theorem setStack_mem (s : State) (v : List Word) : (s.setStack v).mem = s.mem := rfl
@[simp] theorem setStack_FAULT (s : State) (v : List Word) : (s.setStack v).FAULT = s.FAULT := rfl
@[simp] theorem setStack_inputs (s : State) (v : List Word) : (s.setStack v).inputs = s.inputs := rfl
@[simp] theorem setStack_cycle (s : State) (v : List Word) : (s.setStack v).cycle = s.cycle := rfl
@[simp] theorem setStack_stackDepth (s : State) (v : List Word) : (s.setStack v).stackDepth = s.stackDepth := rfl
@[simp] theorem setStack_reg (s : State) (v : List Word) (r : Reg) : (s.setStack v).reg r = s.reg r := rfl
@[simp] theorem setStack_sample (s : State) (v : List Word) : (s.setStack v).sample = s.sample := rfl
@[simp] theorem setStack_effAddr (s : State) (v : List Word) (k : Nat) : (s.setStack v).effAddr k = s.effAddr k := rfl

/-! ## `setDT` -/

@[simp] theorem setDT_V (s : State) (v : Byte) : (s.setDT v).V = s.V := rfl
@[simp] theorem setDT_I (s : State) (v : Byte) : (s.setDT v).I = s.I := rfl
@[simp] theorem setDT_pc (s : State) (v : Byte) : (s.setDT v).pc = s.pc := rfl
@[simp] theorem setDT_stack (s : State) (v : Byte) : (s.setDT v).stack = s.stack := rfl
@[simp] theorem setDT_DT (s : State) (v : Byte) : (s.setDT v).DT = v := rfl
@[simp] theorem setDT_ST (s : State) (v : Byte) : (s.setDT v).ST = s.ST := rfl
@[simp] theorem setDT_disp (s : State) (v : Byte) : (s.setDT v).disp = s.disp := rfl
@[simp] theorem setDT_mem (s : State) (v : Byte) : (s.setDT v).mem = s.mem := rfl
@[simp] theorem setDT_FAULT (s : State) (v : Byte) : (s.setDT v).FAULT = s.FAULT := rfl
@[simp] theorem setDT_inputs (s : State) (v : Byte) : (s.setDT v).inputs = s.inputs := rfl
@[simp] theorem setDT_cycle (s : State) (v : Byte) : (s.setDT v).cycle = s.cycle := rfl
@[simp] theorem setDT_stackDepth (s : State) (v : Byte) : (s.setDT v).stackDepth = s.stackDepth := rfl
@[simp] theorem setDT_reg (s : State) (v : Byte) (r : Reg) : (s.setDT v).reg r = s.reg r := rfl
@[simp] theorem setDT_sample (s : State) (v : Byte) : (s.setDT v).sample = s.sample := rfl
@[simp] theorem setDT_effAddr (s : State) (v : Byte) (k : Nat) : (s.setDT v).effAddr k = s.effAddr k := rfl
@[simp] theorem setDT_sp (s : State) (v : Byte) : (s.setDT v).sp = s.sp := rfl

/-! ## `setST` -/

@[simp] theorem setST_V (s : State) (v : Byte) : (s.setST v).V = s.V := rfl
@[simp] theorem setST_I (s : State) (v : Byte) : (s.setST v).I = s.I := rfl
@[simp] theorem setST_pc (s : State) (v : Byte) : (s.setST v).pc = s.pc := rfl
@[simp] theorem setST_stack (s : State) (v : Byte) : (s.setST v).stack = s.stack := rfl
@[simp] theorem setST_DT (s : State) (v : Byte) : (s.setST v).DT = s.DT := rfl
@[simp] theorem setST_ST (s : State) (v : Byte) : (s.setST v).ST = v := rfl
@[simp] theorem setST_disp (s : State) (v : Byte) : (s.setST v).disp = s.disp := rfl
@[simp] theorem setST_mem (s : State) (v : Byte) : (s.setST v).mem = s.mem := rfl
@[simp] theorem setST_FAULT (s : State) (v : Byte) : (s.setST v).FAULT = s.FAULT := rfl
@[simp] theorem setST_inputs (s : State) (v : Byte) : (s.setST v).inputs = s.inputs := rfl
@[simp] theorem setST_cycle (s : State) (v : Byte) : (s.setST v).cycle = s.cycle := rfl
@[simp] theorem setST_stackDepth (s : State) (v : Byte) : (s.setST v).stackDepth = s.stackDepth := rfl
@[simp] theorem setST_reg (s : State) (v : Byte) (r : Reg) : (s.setST v).reg r = s.reg r := rfl
@[simp] theorem setST_sample (s : State) (v : Byte) : (s.setST v).sample = s.sample := rfl
@[simp] theorem setST_effAddr (s : State) (v : Byte) (k : Nat) : (s.setST v).effAddr k = s.effAddr k := rfl
@[simp] theorem setST_sp (s : State) (v : Byte) : (s.setST v).sp = s.sp := rfl

/-! ## `setDisp` -/

@[simp] theorem setDisp_V (s : State) (v : Display) : (s.setDisp v).V = s.V := rfl
@[simp] theorem setDisp_I (s : State) (v : Display) : (s.setDisp v).I = s.I := rfl
@[simp] theorem setDisp_pc (s : State) (v : Display) : (s.setDisp v).pc = s.pc := rfl
@[simp] theorem setDisp_stack (s : State) (v : Display) : (s.setDisp v).stack = s.stack := rfl
@[simp] theorem setDisp_DT (s : State) (v : Display) : (s.setDisp v).DT = s.DT := rfl
@[simp] theorem setDisp_ST (s : State) (v : Display) : (s.setDisp v).ST = s.ST := rfl
@[simp] theorem setDisp_disp (s : State) (v : Display) : (s.setDisp v).disp = v := rfl
@[simp] theorem setDisp_mem (s : State) (v : Display) : (s.setDisp v).mem = s.mem := rfl
@[simp] theorem setDisp_FAULT (s : State) (v : Display) : (s.setDisp v).FAULT = s.FAULT := rfl
@[simp] theorem setDisp_inputs (s : State) (v : Display) : (s.setDisp v).inputs = s.inputs := rfl
@[simp] theorem setDisp_cycle (s : State) (v : Display) : (s.setDisp v).cycle = s.cycle := rfl
@[simp] theorem setDisp_stackDepth (s : State) (v : Display) : (s.setDisp v).stackDepth = s.stackDepth := rfl
@[simp] theorem setDisp_reg (s : State) (v : Display) (r : Reg) : (s.setDisp v).reg r = s.reg r := rfl
@[simp] theorem setDisp_sample (s : State) (v : Display) : (s.setDisp v).sample = s.sample := rfl
@[simp] theorem setDisp_effAddr (s : State) (v : Display) (k : Nat) : (s.setDisp v).effAddr k = s.effAddr k := rfl
@[simp] theorem setDisp_sp (s : State) (v : Display) : (s.setDisp v).sp = s.sp := rfl

/-! ## `setMem` -/

@[simp] theorem setMem_V (s : State) (v : Memory) : (s.setMem v).V = s.V := rfl
@[simp] theorem setMem_I (s : State) (v : Memory) : (s.setMem v).I = s.I := rfl
@[simp] theorem setMem_pc (s : State) (v : Memory) : (s.setMem v).pc = s.pc := rfl
@[simp] theorem setMem_stack (s : State) (v : Memory) : (s.setMem v).stack = s.stack := rfl
@[simp] theorem setMem_DT (s : State) (v : Memory) : (s.setMem v).DT = s.DT := rfl
@[simp] theorem setMem_ST (s : State) (v : Memory) : (s.setMem v).ST = s.ST := rfl
@[simp] theorem setMem_disp (s : State) (v : Memory) : (s.setMem v).disp = s.disp := rfl
@[simp] theorem setMem_mem (s : State) (v : Memory) : (s.setMem v).mem = v := rfl
@[simp] theorem setMem_FAULT (s : State) (v : Memory) : (s.setMem v).FAULT = s.FAULT := rfl
@[simp] theorem setMem_inputs (s : State) (v : Memory) : (s.setMem v).inputs = s.inputs := rfl
@[simp] theorem setMem_cycle (s : State) (v : Memory) : (s.setMem v).cycle = s.cycle := rfl
@[simp] theorem setMem_stackDepth (s : State) (v : Memory) : (s.setMem v).stackDepth = s.stackDepth := rfl
@[simp] theorem setMem_reg (s : State) (v : Memory) (r : Reg) : (s.setMem v).reg r = s.reg r := rfl
@[simp] theorem setMem_sample (s : State) (v : Memory) : (s.setMem v).sample = s.sample := rfl
@[simp] theorem setMem_effAddr (s : State) (v : Memory) (k : Nat) : (s.setMem v).effAddr k = s.effAddr k := rfl
@[simp] theorem setMem_sp (s : State) (v : Memory) : (s.setMem v).sp = s.sp := rfl

/-! ## `raise` -/

@[simp] theorem raise_V (s : State) (f : Fault) : (raise f s).V = s.V := rfl
@[simp] theorem raise_I (s : State) (f : Fault) : (raise f s).I = s.I := rfl
@[simp] theorem raise_pc (s : State) (f : Fault) : (raise f s).pc = s.pc := rfl
@[simp] theorem raise_stack (s : State) (f : Fault) : (raise f s).stack = s.stack := rfl
@[simp] theorem raise_DT (s : State) (f : Fault) : (raise f s).DT = s.DT := rfl
@[simp] theorem raise_ST (s : State) (f : Fault) : (raise f s).ST = s.ST := rfl
@[simp] theorem raise_disp (s : State) (f : Fault) : (raise f s).disp = s.disp := rfl
@[simp] theorem raise_mem (s : State) (f : Fault) : (raise f s).mem = s.mem := rfl
@[simp] theorem raise_FAULT (s : State) (f : Fault) : (raise f s).FAULT = some f := rfl
@[simp] theorem raise_inputs (s : State) (f : Fault) : (raise f s).inputs = s.inputs := rfl
@[simp] theorem raise_cycle (s : State) (f : Fault) : (raise f s).cycle = s.cycle := rfl
@[simp] theorem raise_stackDepth (s : State) (f : Fault) : (raise f s).stackDepth = s.stackDepth := rfl
@[simp] theorem raise_reg (s : State) (f : Fault) (r : Reg) : (raise f s).reg r = s.reg r := rfl
@[simp] theorem raise_sample (s : State) (f : Fault) : (raise f s).sample = s.sample := rfl
@[simp] theorem raise_effAddr (s : State) (f : Fault) (k : Nat) : (raise f s).effAddr k = s.effAddr k := rfl
@[simp] theorem raise_sp (s : State) (f : Fault) : (raise f s).sp = s.sp := rfl

/-! ## `tick` -/

@[simp] theorem tick_V (s : State) : (tick s).V = s.V := rfl
@[simp] theorem tick_I (s : State) : (tick s).I = s.I := rfl
@[simp] theorem tick_pc (s : State) : (tick s).pc = s.pc := rfl
@[simp] theorem tick_stack (s : State) : (tick s).stack = s.stack := rfl
@[simp] theorem tick_DT (s : State) : (tick s).DT = tickTimer s.DT := rfl
@[simp] theorem tick_ST (s : State) : (tick s).ST = tickTimer s.ST := rfl
@[simp] theorem tick_disp (s : State) : (tick s).disp = s.disp := rfl
@[simp] theorem tick_mem (s : State) : (tick s).mem = s.mem := rfl
@[simp] theorem tick_FAULT (s : State) : (tick s).FAULT = s.FAULT := rfl
@[simp] theorem tick_inputs (s : State) : (tick s).inputs = s.inputs.tail := rfl
@[simp] theorem tick_cycle (s : State) : (tick s).cycle = s.cycle + 1 := rfl
@[simp] theorem tick_stackDepth (s : State) : (tick s).stackDepth = s.stackDepth := rfl
@[simp] theorem tick_reg (s : State) (r : Reg) : (tick s).reg r = s.reg r := rfl
@[simp] theorem tick_effAddr (s : State) (k : Nat) : (tick s).effAddr k = s.effAddr k := rfl
@[simp] theorem tick_sp (s : State) : (tick s).sp = s.sp := rfl

/-! ## Composed updates, in terms of the plain ones -/

@[simp] theorem advance_eq (s : State) : s.advance = s.setPc (s.pc + 2) := rfl
@[simp] theorem skipIf_eq (s : State) (c : Bool) : s.skipIf c = s.setPc (if c then s.pc + 4 else s.pc + 2) := rfl
@[simp] theorem decodeMiss_eq (s : State) : decodeMiss s = s.setPc (s.pc + 2) := rfl
@[simp] theorem writeResult_eq (x : Reg) (r : Byte) (s : State) : writeResult x r s = (s.setReg x r).setPc (s.pc + 2) := rfl
@[simp] theorem writeResultAndFlag_eq (x : Reg) (r : Byte) (f : Bool) (s : State) :
    writeResultAndFlag x r f s = ((s.setReg x r).setReg VF (flagByte f)).setPc (s.pc + 2) := rfl

/-! ## Reading a general register after a write -/

/-- A register write changes the register it names and no other (10_state.md R10). -/
theorem setReg_reg (s : State) (x r : Reg) (v : Byte) : (s.setReg x v).reg r = if r = x then v else s.reg r := by
  simp only [State.reg, State.setReg, Fin.getElem_fin, Vector.getElem_set, Fin.ext_iff, eq_comm]

@[simp] theorem setReg_reg_self (s : State) (x : Reg) (v : Byte) : (s.setReg x v).reg x = v := by
  simp [setReg_reg]

theorem setReg_reg_of_ne (s : State) (x r : Reg) (v : Byte) (h : r ≠ x) : (s.setReg x v).reg r = s.reg r := by
  simp [setReg_reg, h]

/-- A cycle that did not raise ticks; one that did ends at once (40_cycle.md R75, R77). -/
theorem endCycle_cases (s : State) :
    (s.FAULT = none ∧ endCycle s = tick s) ∨ (∃ f, s.FAULT = some f ∧ endCycle s = s) := by
  unfold endCycle
  cases h : s.FAULT with
  | none => exact .inl ⟨rfl, rfl⟩
  | some f => exact .inr ⟨f, rfl, rfl⟩

theorem endCycle_running {s : State} (h : s.FAULT = none) : endCycle s = tick s := by simp [endCycle, h]
theorem endCycle_faulted {s : State} {f : Fault} (h : s.FAULT = some f) : endCycle s = s := by simp [endCycle, h]

end Sys2Proof.Machine
end

