-- ==== Sys2Proof/Laws/Memory.lean ====
section
/-! SUPPORT. The store (20_memory.md R35, R37, R40): a read after a write, and that every memory operation keeps the canonical form. -/

namespace Sys2Proof.Machine

theorem Memory.get_erase (m : Memory) (a a' : Nat) :
    (m.erase a).get a' = if a' = a then resetByte a' else m.get a' := by
  induction m with
  | nil => simp [Memory.erase, Memory.get]
  | cons p m ih =>
    obtain ⟨k, v⟩ := p
    by_cases hk : a = k
    · subst hk
      simp only [Memory.erase, Memory.get, if_true, ih]
      split <;> rfl
    · by_cases h' : a' = k
      · subst h'
        simp [Memory.erase, Memory.get, hk, Ne.symm hk]
      · simp [Memory.erase, Memory.get, hk, h', ih]

theorem Memory.get_insert (m : Memory) (a a' : Nat) (b : Byte) (h : ∀ v, (a, v) ∉ m) :
    (m.insert a b).get a' = if a' = a then b else m.get a' := by
  induction m with
  | nil => simp [Memory.insert, Memory.get]
  | cons p m ih =>
    obtain ⟨k, v⟩ := p
    have hk : a ≠ k := fun e => h v (by simp [e])
    have hm : ∀ v, (a, v) ∉ m := fun v hv => h v (List.mem_cons_of_mem _ hv)
    by_cases hlt : a < k
    · simp [Memory.insert, Memory.get, hlt]
    · by_cases h' : a' = k
      · subst h'
        simp [Memory.insert, Memory.get, hlt, Ne.symm hk]
      · simp [Memory.insert, Memory.get, hlt, h', ih hm]

theorem Memory.not_mem_erase (m : Memory) (a : Nat) (v : Byte) : (a, v) ∉ m.erase a := by
  induction m with
  | nil => simp [Memory.erase]
  | cons p m ih =>
    obtain ⟨k, w⟩ := p
    by_cases hk : a = k
    · simpa [Memory.erase, hk] using hk ▸ ih
    · simp [Memory.erase, hk, ih]

/-- A read returns the last byte written there, and a write leaves every other offset alone (20_memory.md R37, R40 (c)). -/
theorem Memory.get_set (m : Memory) (a a' : Nat) (b : Byte) :
    (m.set a b).get a' = if a' = a then b else m.get a' := by
  unfold Memory.set
  by_cases hb : b = resetByte a
  · simp only [hb, if_true, Memory.get_erase]
    split <;> simp_all
  · simp only [hb, if_false, Memory.get_insert _ _ _ _ (Memory.not_mem_erase m a), Memory.get_erase]
    split <;> rfl

@[simp] theorem Memory.get_set_self (m : Memory) (a : Nat) (b : Byte) : (m.set a b).get a = b := by
  simp [Memory.get_set]

theorem Memory.get_set_of_ne (m : Memory) (a a' : Nat) (b : Byte) (h : a' ≠ a) : (m.set a b).get a' = m.get a' := by
  simp [Memory.get_set, h]

/-! ## The canonical form -/

theorem Memory.wfFrom_mono {m : Memory} {lo lo' : Nat} (h : m.wfFrom lo = true) (hle : lo' ≤ lo) : m.wfFrom lo' = true := by
  cases m with
  | nil => rfl
  | cons p m =>
    obtain ⟨k, v⟩ := p
    simp only [Memory.wfFrom, Bool.and_eq_true, decide_eq_true_eq] at h ⊢
    exact ⟨⟨⟨by omega, h.1.1.2⟩, h.1.2⟩, h.2⟩

theorem Memory.wfFrom_erase {m : Memory} {lo : Nat} (a : Nat) (h : m.wfFrom lo = true) : (m.erase a).wfFrom lo = true := by
  induction m generalizing lo with
  | nil => rfl
  | cons p m ih =>
    obtain ⟨k, v⟩ := p
    simp only [Memory.wfFrom, Bool.and_eq_true, decide_eq_true_eq] at h
    by_cases hk : a = k
    · simp only [Memory.erase, hk, if_true]
      rw [← hk]
      exact ih (Memory.wfFrom_mono h.2 (by omega))
    · simp only [Memory.erase, hk, if_false, Memory.wfFrom, Bool.and_eq_true, decide_eq_true_eq]
      exact ⟨h.1, ih h.2⟩

theorem Memory.wfFrom_insert {m : Memory} {lo : Nat} (a : Nat) (b : Byte) (h : m.wfFrom lo = true) (hlo : lo ≤ a)
    (ha : a < Config.memSize) (hb : b ≠ resetByte a) (hn : ∀ v, (a, v) ∉ m) : (m.insert a b).wfFrom lo = true := by
  induction m generalizing lo with
  | nil => simp [Memory.insert, Memory.wfFrom, hlo, ha, hb]
  | cons p m ih =>
    obtain ⟨k, v⟩ := p
    have hk : a ≠ k := fun e => hn v (by simp [e])
    simp only [Memory.wfFrom, Bool.and_eq_true, decide_eq_true_eq] at h
    by_cases hlt : a < k
    · simp only [Memory.insert, hlt, if_true, Memory.wfFrom, Bool.and_eq_true, decide_eq_true_eq, bne_iff_ne]
      exact ⟨⟨⟨hlo, ha⟩, hb⟩, ⟨⟨⟨by omega, h.1.1.2⟩, by simpa using h.1.2⟩, h.2⟩⟩
    · simp only [Memory.insert, hlt, if_false, Memory.wfFrom, Bool.and_eq_true, decide_eq_true_eq]
      exact ⟨h.1, ih h.2 (by omega) (fun v hv => hn v (List.mem_cons_of_mem _ hv))⟩

/-- Storing a byte inside the address space keeps the canonical form. -/
theorem Memory.wf_set {m : Memory} {a : Nat} (b : Byte) (h : m.wf = true) (ha : a < Config.memSize) : (m.set a b).wf = true := by
  unfold Memory.wf Memory.set
  have he := Memory.wfFrom_erase a h
  split
  · exact he
  · exact Memory.wfFrom_insert a b he (Nat.zero_le a) ha ‹_› (Memory.not_mem_erase m a)

theorem Memory.wf_nil : Memory.wf [] = true := rfl

/-- A multi-byte store inside the address space keeps the canonical form. -/
theorem Memory.wf_setBytes {m : Memory} {a : Nat} (bs : List Byte) (h : m.wf = true) (ha : a + bs.length ≤ Config.memSize) :
    (m.setBytes a bs).wf = true := by
  induction bs generalizing m a with
  | nil => exact h
  | cons b bs ih =>
    simp only [List.length_cons] at ha
    exact ih (Memory.wf_set b h (by omega)) (by omega)

/-- What a multi-byte store leaves at every offset. -/
theorem Memory.get_setBytes (m : Memory) (a a' : Nat) (bs : List Byte) :
    (m.setBytes a bs).get a' = if a ≤ a' then (bs[a' - a]?).getD (m.get a') else m.get a' := by
  induction bs generalizing m a with
  | nil => simp [Memory.setBytes]
  | cons b bs ih =>
    simp only [Memory.setBytes, ih, Memory.get_set]
    by_cases h1 : a' = a
    · subst h1
      simp [show ¬ a' + 1 ≤ a' by omega]
    · by_cases h2 : a + 1 ≤ a'
      · have h3 : a' - a = (a' - (a + 1)) + 1 := by omega
        simp [h1, h2, h3, show a ≤ a' by omega]
      · simp [h1, h2, show ¬ a ≤ a' by omega]

end Sys2Proof.Machine
end

