-- ==== Sys2Proof/Laws/Ops.lean ====
section
/-! SUPPORT. One lemma for each shared operation: everything it can do. -/

namespace Sys2Proof.Machine

/-! ## Outcomes -/

@[simp] theorem finish_ok (t u : State) : finish (.ok t) u = .next t := rfl
@[simp] theorem finish_error (f : Fault) (u : State) : finish (.error f) u = .next (raise f u) := rfl

/-- An execute phase ends in a next state: the one reached, or the one the raise leaves (60_exceptions.md R136). -/
theorem finish_cases (r : Except Fault State) (u : State) :
    (∃ t, r = .ok t ∧ finish r u = .next t) ∨ (∃ f, r = .error f ∧ finish r u = .next (raise f u)) := by
  cases r with
  | ok t => exact .inl ⟨t, rfl, rfl⟩
  | error f => exact .inr ⟨f, rfl, rfl⟩

@[simp] theorem map_ok {α β ε : Type} (f : α → β) (a : α) : (Except.ok a : Except ε α).map f = .ok (f a) := rfl
@[simp] theorem map_error {α β ε : Type} (f : α → β) (e : ε) : (Except.error e : Except ε α).map f = .error e := rfl

@[simp] theorem endOutcome_next (t : State) : endOutcome (.next t) = .next (endCycle t) := rfl

/-! ## Memory primitives (20_memory.md R35 to R37) -/

@[simp] theorem legalOffset_iff (a : Nat) : legalOffset a = true ↔ a ≤ 0xFFF := by simp [legalOffset]
@[simp] theorem legalOffset_false_iff (a : Nat) : legalOffset a = false ↔ 0xFFF < a := by simp [legalOffset]

theorem memRead_legal (s : State) {a : Nat} (h : a ≤ 0xFFF) : memRead s a = .ok (s.mem.get a) := by simp [memRead, legalOffset, h]
theorem memRead_illegal (s : State) {a : Nat} (h : 0xFFF < a) : memRead s a = .error (.memory a .read) := by
  simp [memRead, legalOffset, show ¬ a ≤ 0xFFF by omega]

theorem memWrite_legal (s : State) {a : Nat} (v : Byte) (h : a ≤ 0xFFF) : memWrite s a v = .ok (s.setMem (s.mem.set a v)) := by
  simp [memWrite, legalOffset, h]
theorem memWrite_illegal (s : State) {a : Nat} (v : Byte) (h : 0xFFF < a) : memWrite s a v = .error (.memory a .write) := by
  simp [memWrite, legalOffset, show ¬ a ≤ 0xFFF by omega]

theorem fetch_legal (s : State) (h : s.pc.toNat ≤ 0xFFE) :
    fetch s = .ok (wordOf (s.mem.get s.pc.toNat) (s.mem.get (s.pc.toNat + 1))) := by
  simp [fetch, legalOffset, show s.pc.toNat ≤ 0xFFF by omega, show s.pc.toNat + 1 ≤ 0xFFF by omega]

/-- A fetch above 0xFFE raises on the first offset that is out of range (20_memory.md R36). -/
theorem fetch_illegal (s : State) (h : 0xFFE < s.pc.toNat) : fetch s = .error (.memory (max s.pc.toNat 0x1000) .fetch) := by
  by_cases h' : s.pc.toNat ≤ 0xFFF
  · have : s.pc.toNat = 0xFFF := by omega
    simp [fetch, legalOffset, this]
  · simp [fetch, legalOffset, h', show max s.pc.toNat 0x1000 = s.pc.toNat by omega]

/-! ## Multi-byte transfers (20_memory.md R37, R39; 43_index_memory.md R108 to R110) -/

theorem storeBytes_legal (s : State) (a : Nat) (bs : List Byte) (h : a + bs.length ≤ 0x1000) :
    storeBytes s a bs = .ok (s.setMem (s.mem.setBytes a bs)) := by
  induction bs generalizing s a with
  | nil => rfl
  | cons b bs ih =>
    simp only [List.length_cons] at h
    simp [storeBytes, memWrite_legal s b (show a ≤ 0xFFF by omega), ih _ (a + 1) (by omega), Memory.setBytes, State.setMem]

theorem storeBytes_illegal (s : State) (a : Nat) (bs : List Byte) (hne : bs ≠ []) (h : 0x1000 < a + bs.length) :
    storeBytes s a bs = .error (.memory (max a 0x1000) .write) := by
  induction bs generalizing s a with
  | nil => exact absurd rfl hne
  | cons b bs ih =>
    simp only [List.length_cons] at h
    by_cases ha : a ≤ 0xFFF
    · have hne' : bs ≠ [] := by
        intro e
        simp only [e, List.length_nil] at h
        omega
      simp [storeBytes, memWrite_legal s b ha, ih _ (a + 1) hne' (by omega), show max (a + 1) 4096 = max a 4096 by omega]
    · simp [storeBytes, memWrite_illegal s b (show 0xFFF < a by omega), show max a 4096 = a by omega]

theorem succ_toNat (w : Word) (h : w.toNat ≤ 0xFFF) : (w + 1).toNat = w.toNat + 1 := by
  have : (w + 1).toNat = (w.toNat + 1) % 65536 := by simp [BitVec.toNat_add]
  omega

theorem dumpRegs_legal (s : State) (rs : List Reg) (h : s.I.toNat + rs.length ≤ 0x1000) :
    dumpRegs s rs = .ok ((s.setMem (s.mem.setBytes s.I.toNat (rs.map s.reg))).setI (s.I + BitVec.ofNat 16 rs.length)) := by
  induction rs generalizing s with
  | nil => simp [dumpRegs, Memory.setBytes, State.setMem, State.setI]
  | cons r rs ih =>
    simp only [List.length_cons] at h
    have hI := succ_toNat s.I (by omega)
    have := ih ((s.setMem (s.mem.set s.I.toNat (s.reg r))).setI (s.I + 1)) (by simp only [setI_I, hI]; omega)
    simp only [dumpRegs, memWrite_legal s _ (show s.I.toNat ≤ 0xFFF by omega), setMem_I, this]
    simp only [setI_I, setI_mem, setMem_mem, hI, List.map_cons, Memory.setBytes]
    have e : s.I + 1 + BitVec.ofNat 16 rs.length = s.I + BitVec.ofNat 16 (r :: rs).length := by
      simp only [List.length_cons, BitVec.add_assoc, BitVec.ofNat_add]
      rw [BitVec.add_comm 1]
      rfl
    rw [e]
    rfl

theorem dumpRegs_illegal (s : State) (rs : List Reg) (hne : rs ≠ []) (h : 0x1000 < s.I.toNat + rs.length) :
    dumpRegs s rs = .error (.memory (max s.I.toNat 0x1000) .write) := by
  induction rs generalizing s with
  | nil => exact absurd rfl hne
  | cons r rs ih =>
    simp only [List.length_cons] at h
    by_cases ha : s.I.toNat ≤ 0xFFF
    · have hne' : rs ≠ [] := by
        intro e
        simp only [e, List.length_nil] at h
        omega
      have hI := succ_toNat s.I ha
      have := ih ((s.setMem (s.mem.set s.I.toNat (s.reg r))).setI (s.I + 1)) hne' (by simp only [setI_I, hI]; omega)
      simp only [dumpRegs, memWrite_legal s _ ha, setMem_I, this, setI_I, hI]
      rw [show max (s.I.toNat + 1) 4096 = max s.I.toNat 4096 by omega]
    · simp [dumpRegs, memWrite_illegal s (s.reg r) (show 0xFFF < s.I.toNat by omega), show max s.I.toNat 4096 = s.I.toNat by omega]

/-- The bulk load: each register of the list from its own offset, every other register and all else but `I` as before. -/
theorem loadRegs_legal (s : State) (rs : List Reg) (h : s.I.toNat + rs.length ≤ 0x1000) (hnd : rs.Nodup) :
    ∃ t, loadRegs s rs = .ok t ∧ t = { s with V := t.V, I := s.I + BitVec.ofNat 16 rs.length } ∧
      (∀ r, r ∉ rs → t.reg r = s.reg r) ∧ (∀ j (hj : j < rs.length), t.reg rs[j] = s.mem.get (s.I.toNat + j)) := by
  induction rs generalizing s with
  | nil => exact ⟨s, rfl, by simp, fun _ _ => rfl, fun j hj => absurd hj (Nat.not_lt_zero j)⟩
  | cons r rs ih =>
    simp only [List.length_cons] at h
    obtain ⟨hr, hnd'⟩ := List.nodup_cons.mp hnd
    have hI := succ_toNat s.I (by omega)
    obtain ⟨t, ht, hs, hout, hin⟩ := ih ((s.setReg r (s.mem.get s.I.toNat)).setI (s.I + 1)) (by simp only [setI_I, hI]; omega) hnd'
    refine ⟨t, by simp only [loadRegs, memRead_legal s (show s.I.toNat ≤ 0xFFF by omega), ht], ?_, ?_, ?_⟩
    · have e : s.I + 1 + BitVec.ofNat 16 rs.length = s.I + BitVec.ofNat 16 (r :: rs).length := by
        simp only [List.length_cons, BitVec.add_assoc, BitVec.ofNat_add]
        rw [BitVec.add_comm 1]
        rfl
      rw [hs]
      simp only [setI_I, e]
      rfl
    · intro q hq
      have hq' : q ≠ r ∧ q ∉ rs := by simpa [not_or] using hq
      rw [hout q hq'.2, setI_reg, setReg_reg_of_ne _ _ _ _ hq'.1]
    · intro j hj
      cases j with
      | zero =>
        rw [List.getElem_cons_zero, hout r hr]
        simp
      | succ j =>
        have := hin j (by simpa using hj)
        rw [List.getElem_cons_succ, this]
        simp only [setI_mem, setReg_mem, setI_I, hI]
        congr 1
        omega

theorem loadRegs_illegal (s : State) (rs : List Reg) (hne : rs ≠ []) (h : 0x1000 < s.I.toNat + rs.length) :
    loadRegs s rs = .error (.memory (max s.I.toNat 0x1000) .read) := by
  induction rs generalizing s with
  | nil => exact absurd rfl hne
  | cons r rs ih =>
    simp only [List.length_cons] at h
    by_cases ha : s.I.toNat ≤ 0xFFF
    · have hne' : rs ≠ [] := by
        intro e
        simp only [e, List.length_nil] at h
        omega
      have hI := succ_toNat s.I ha
      have := ih ((s.setReg r (s.mem.get s.I.toNat)).setI (s.I + 1)) hne' (by simp only [setI_I, hI]; omega)
      simp only [loadRegs, memRead_legal s ha, this, setI_I, hI]
      rw [show max (s.I.toNat + 1) 4096 = max s.I.toNat 4096 by omega]
    · simp [loadRegs, memRead_illegal s (show 0xFFF < s.I.toNat by omega), show max s.I.toNat 4096 = s.I.toNat by omega]

theorem regsUpTo_length (x : Reg) : (regsUpTo x).length = x.val + 1 := by
  revert x
  decide

theorem regsUpTo_nodup (x : Reg) : (regsUpTo x).Nodup := by
  revert x
  decide

theorem mem_regsUpTo (x r : Reg) : r ∈ regsUpTo x ↔ r ≤ x := by
  revert x r
  decide

/-- The `k`-th register a bulk transfer moves is register `k` (43_index_memory.md R109, R110). -/
theorem regsUpTo_getElem (x : Reg) (k : Fin 16) (h : k ≤ x) : (regsUpTo x)[k.val]? = some k := by
  revert x k
  decide

/-! ## The call stack -/

theorem pushReturn_cases (s : State) (v : Word) :
    (s.stackDepth = some s.sp ∧ pushReturn s v = .error .stackOverflow) ∨
    (s.stackDepth ≠ some s.sp ∧ pushReturn s v = .ok (s.setStack (v :: s.stack))) := by
  unfold pushReturn
  by_cases h : s.stackDepth = some s.sp
  · exact .inl ⟨h, if_pos h⟩
  · exact .inr ⟨h, if_neg h⟩

theorem popReturn_cases (s : State) :
    (s.stack = [] ∧ popReturn s = .error .stackUnderflow) ∨
    (∃ v st, s.stack = v :: st ∧ popReturn s = .ok ((s.setStack st).setPc v)) := by
  unfold popReturn
  cases h : s.stack with
  | nil => exact .inl ⟨rfl, rfl⟩
  | cons v st => exact .inr ⟨v, st, rfl, rfl⟩

/-! ## Keys and timers -/

theorem keyIndex_cases (s : State) (x : Reg) :
    ((s.reg x).toNat ≤ 15 ∧ s.keyIndex x = .ok (s.reg x)) ∨ (16 ≤ (s.reg x).toNat ∧ s.keyIndex x = .error (.key (s.reg x))) := by
  unfold State.keyIndex
  by_cases h : (s.reg x).toNat ≤ 15
  · exact .inl ⟨h, if_pos h⟩
  · exact .inr ⟨by omega, if_neg h⟩

/-- A tick takes one from a timer and saturates at 0 (40_cycle.md R75). -/
theorem tickTimer_toNat (t : Byte) : (tickTimer t).toNat = t.toNat - 1 := by
  unfold tickTimer
  split
  · simp_all
  · have h0 : t.toNat ≠ 0 := fun h => ‹¬t = 0› (BitVec.eq_of_toNat_eq (by simpa using h))
    have hlt := t.isLt
    have h1 : (1 : Byte).toNat = 1 := rfl
    rw [BitVec.toNat_sub, h1]
    omega

/-! ## Unspecified state after a fault (60_exceptions.md R136 (d)) -/

theorem unspecifiedMem_frame (s : State) (a span : Nat) :
    unspecifiedMem s a span = { s with mem := (unspecifiedMem s a span).mem } := by
  induction span generalizing s a with
  | zero => rfl
  | succ n ih =>
    simp only [unspecifiedMem]
    split
    · rw [ih]
      rfl
    · exact ih s (a + 1)

/-- Only the offsets of the instruction's own span become unspecified. -/
theorem unspecifiedMem_get (s : State) (a span a' : Nat) (h : a' < a ∨ a + span ≤ a') :
    (unspecifiedMem s a span).mem.get a' = s.mem.get a' := by
  induction span generalizing s a with
  | zero => rfl
  | succ n ih =>
    simp only [unspecifiedMem]
    rw [ih _ (a + 1) (by omega)]
    split
    · rw [setMem_mem, Memory.get_set_of_ne _ _ _ _ (by omega)]
    · rfl

theorem unspecifiedMem_wf (s : State) (a span : Nat) (h : s.mem.wf = true) : (unspecifiedMem s a span).mem.wf = true := by
  induction span generalizing s a with
  | zero => exact h
  | succ n ih =>
    simp only [unspecifiedMem]
    apply ih
    split
    · next hl =>
      rw [legalOffset_iff] at hl
      exact Memory.wf_set _ h (Nat.lt_succ_of_le hl)
    · exact h

theorem unspecifiedRegs_frame (s : State) (x : Reg) : unspecifiedRegs s x = { s with V := (unspecifiedRegs s x).V } := rfl

theorem unspecifiedRegs_reg (s : State) (x r : Reg) :
    (unspecifiedRegs s x).reg r = if r ≤ x then Config.freeReg s.cycle r else s.reg r := by
  simp [unspecifiedRegs, State.reg]

/-- A display and a register write change those two fields. -/
theorem setDisp_setReg_frame (s : State) (d : Display) (r : Reg) (v : Byte) :
    (s.setDisp d).setReg r v = { s with V := ((s.setDisp d).setReg r v).V, disp := ((s.setDisp d).setReg r v).disp } := rfl

theorem unspecifiedDraw_frame (s : State) (sx sy n : Nat) :
    unspecifiedDraw s sx sy n = { s with V := (unspecifiedDraw s sx sy n).V, disp := (unspecifiedDraw s sx sy n).disp } :=
  setDisp_setReg_frame s _ _ _

theorem unspecifiedDraw_reg_of_ne (s : State) (sx sy n : Nat) (r : Reg) (h : r ≠ VF) : (unspecifiedDraw s sx sy n).reg r = s.reg r := by
  rw [unspecifiedDraw, setReg_reg_of_ne _ _ _ _ h, setDisp_reg]

/-- Only the pixels of the sprite's footprint become unspecified. -/
theorem unspecifiedDraw_pixel (s : State) (sx sy n px py : Nat) (h : inFootprint sx sy n px py = false) :
    (unspecifiedDraw s sx sy n).disp.pixel px py = s.disp.pixel px py := by
  simp only [unspecifiedDraw, setReg_disp, setDisp_disp, Display.pixel]
  split
  · next hb => simp [h]
  · rfl

end Sys2Proof.Machine
end

