-- ==== Sys2Proof/Laws/Display.lean ====
section
/-! SUPPORT. The draw (44_display.md R116, R117): what one toggle, one sprite row and a whole sprite do to each pixel and to the
collision flag. -/

namespace Sys2Proof.Machine

/-- Toggling a pixel of the grid inverts it and no other; outside the grid nothing changes. -/
theorem Display.pixel_toggle (d : Display) (px py qx qy : Nat) :
    (d.toggle px py).pixel qx qy = (d.pixel qx qy ^^ (decide (qx = px) && decide (qy = py) && inBuffer px py)) := by
  unfold Display.toggle Display.pixel inBuffer
  by_cases hp : py < 32 ∧ px < 64
  · have h1 : px ≤ 63 := by omega
    have h2 : py ≤ 31 := by omega
    by_cases hq : qy < 32 ∧ qx < 64
    · simp only [hp, hq, dif_pos, and_self, h1, h2, decide_true, Bool.and_true]
      by_cases hy : qy = py
      · subst hy
        by_cases hx : qx = px
        · subst hx; simp
        · simp [hx, Ne.symm hx]
      · simp [hy, Ne.symm hy]
    · have : ¬ (qx = px ∧ qy = py) := by omega
      simp only [hp, hq, dif_pos, and_self, dif_neg, not_false_eq_true, Bool.false_bne, h1, h2, decide_true, Bool.and_true]
      by_cases hx : qx = px
      · have hy : qy ≠ py := by omega
        simp [hy]
      · simp [hx]
  · have hb : (decide (px ≤ 63) && decide (py ≤ 31)) = false := by
      by_cases h1 : px ≤ 63
      · have h2 : ¬ py ≤ 31 := by omega
        simp [h2]
      · simp [h1]
    simp [hp, hb]

theorem Display.pixel_blank (px py : Nat) : Display.blank.pixel px py = false := by
  simp [Display.blank, Display.pixel]

/-- Two buffers with the same pixels are the same buffer. -/
theorem Display.ext_pixel {d e : Display} (h : ∀ px py, px ≤ 63 → py ≤ 31 → d.pixel px py = e.pixel px py) : d = e := by
  apply Vector.ext
  intro y hy
  apply Vector.ext
  intro x hx
  have := h x y (by omega) (by omega)
  simpa [Display.pixel, hx, hy] using this

theorem drawPixel_pixel (c : Canvas) (px py qx qy : Nat) :
    (drawPixel c px py).disp.pixel qx qy = (c.disp.pixel qx qy ^^ (decide (qx = px) && decide (qy = py) && inBuffer px py)) := by
  unfold drawPixel
  split
  · exact Display.pixel_toggle _ _ _ _ _
  · simp [*]

theorem drawPixel_hit (c : Canvas) (px py : Nat) : (drawPixel c px py).hit = (c.hit || (inBuffer px py && c.disp.pixel px py)) := by
  unfold drawPixel
  split <;> simp [*]

/-- One sprite row, on the columns of a list without repeats: each set bit inverts its pixel, and the collision flag is the OR of the
pixels that were set before (R117 items 8, 9). -/
theorem drawCols_spec (c : Canvas) (sx py : Nat) (b : Byte) (cols : List Nat) (hnd : cols.Nodup) :
    (∀ qx qy, (drawCols c sx py b cols).disp.pixel qx qy = (c.disp.pixel qx qy ^^
      (decide (qy = py) && inBuffer qx py && decide (sx ≤ qx) && cols.contains (qx - sx) && b.getLsbD (7 - (qx - sx))))) ∧
    (drawCols c sx py b cols).hit = (c.hit || cols.any (fun col => b.getLsbD (7 - col) && inBuffer (sx + col) py && c.disp.pixel (sx + col) py)) := by
  induction cols generalizing c with
  | nil => simp [drawCols]
  | cons col cols ih =>
    obtain ⟨hc, hnd'⟩ := List.nodup_cons.mp hnd
    simp only [drawCols]
    by_cases hb : b.getLsbD (7 - col) = true
    · simp only [hb, if_true]
      obtain ⟨ih1, ih2⟩ := ih (drawPixel c (sx + col) py) hnd'
      refine ⟨fun qx qy => ?_, ?_⟩
      · rw [ih1, drawPixel_pixel, Bool.xor_assoc]
        congr 1
        by_cases hx : qx = sx + col
        · subst hx
          by_cases hy : qy = py
          · subst hy
            simp [hc, hb]
          · simp [hy]
        · by_cases hle : sx ≤ qx
          · have : qx - sx ≠ col := by omega
            simp [hx, this]
          · simp [hx, hle]
      · rw [ih2, drawPixel_hit, List.any_cons, hb, Bool.true_and, Bool.or_assoc]
        congr 2
        rw [Bool.eq_iff_iff, List.any_eq_true, List.any_eq_true]
        refine exists_congr fun k => and_congr_right fun hk => ?_
        have hne : k ≠ col := fun e => hc (e ▸ hk)
        rw [drawPixel_pixel]
        simp [hne]
    · have hb' : b.getLsbD (7 - col) = false := by simpa using hb
      simp only [hb']
      obtain ⟨ih1, ih2⟩ := ih c hnd'
      refine ⟨fun qx qy => ?_, ?_⟩
      · rw [if_neg (by simp), ih1]
        congr 1
        by_cases hx : qx - sx = col
        · simp [hx, hb']
        · simp [hx]
      · rw [if_neg (by simp), ih2, List.any_cons, hb']
        simp

theorem range8_contains (k : Nat) : (List.range 8).contains k = decide (k < 8) := by
  rw [Bool.eq_iff_iff]
  simp

/-- The rows of a sprite that can all be read: each toggled pixel is inverted, and the flag says whether one was set before. -/
theorem drawRows_legal (s : State) (c : Canvas) (sx sy : Nat) (rows : List Nat) (hnd : rows.Nodup)
    (h : ∀ row ∈ rows, s.I.toNat + row ≤ 0xFFF) :
    ∃ c', drawRows s c sx sy rows = .ok c' ∧
      (∀ qx qy, c'.disp.pixel qx qy = (c.disp.pixel qx qy ^^
        (inBuffer qx qy && decide (sx ≤ qx) && decide (qx < sx + 8) && decide (sy ≤ qy) && rows.contains (qy - sy) &&
          (s.mem.get (s.I.toNat + (qy - sy))).getLsbD (7 - (qx - sx))))) ∧
      c'.hit = (c.hit || rows.any (fun row => (List.range 8).any (fun col =>
        (s.mem.get (s.I.toNat + row)).getLsbD (7 - col) && inBuffer (sx + col) (sy + row) && c.disp.pixel (sx + col) (sy + row)))) := by
  induction rows generalizing c with
  | nil => exact ⟨c, rfl, by simp, by simp⟩
  | cons row rows ih =>
    obtain ⟨hr, hnd'⟩ := List.nodup_cons.mp hnd
    obtain ⟨hc1, hc2⟩ := drawCols_spec c sx (sy + row) (s.mem.get (s.I.toNat + row)) (List.range 8) List.nodup_range
    obtain ⟨c', h1, h2, h3⟩ := ih (drawCols c sx (sy + row) (s.mem.get (s.I.toNat + row)) (List.range 8)) hnd'
      (fun r hr => h r (List.mem_cons_of_mem _ hr))
    refine ⟨c', ?_, fun qx qy => ?_, ?_⟩
    · simp only [drawRows, State.effAddr, memRead_legal s (h row (List.mem_cons_self ..)), h1]
    · rw [h2, hc1, Bool.xor_assoc]
      congr 1
      simp only [range8_contains]
      by_cases hy : qy = sy + row
      · subst hy
        by_cases hx : sx ≤ qx
        · have : decide (qx - sx < 8) = decide (qx < sx + 8) := by
            rw [Bool.eq_iff_iff]
            simp only [decide_eq_true_eq]
            omega
          simp [hr, hx, this]
        · simp [hx]
      · by_cases hle : sy ≤ qy
        · have : qy - sy ≠ row := by omega
          simp [hy, this]
        · simp [hy, hle]
    · rw [h3, hc2, List.any_cons, Bool.or_assoc]
      congr 2
      rw [Bool.eq_iff_iff, List.any_eq_true, List.any_eq_true]
      refine exists_congr fun k => and_congr_right fun hk => ?_
      have hne : k ≠ row := fun e => hr (e ▸ hk)
      simp [hc1, hne]

theorem drawRows_illegal (s : State) (c : Canvas) (sx sy n k : Nat) (hn : n ≠ 0) (h : 0xFFF < s.I.toNat + k + n - 1) :
    drawRows s c sx sy (List.range' k n) = .error (.memory (max (s.I.toNat + k) 0x1000) .read) := by
  induction n generalizing c k with
  | zero => exact absurd rfl hn
  | succ n ih =>
    rw [List.range'_succ]
    by_cases ha : s.I.toNat + k ≤ 0xFFF
    · have hn' : n ≠ 0 := by omega
      simp only [drawRows, State.effAddr, memRead_legal s ha, ih _ (k + 1) hn' (by omega)]
      rw [show max (s.I.toNat + (k + 1)) 4096 = max (s.I.toNat + k) 4096 by omega]
    · simp only [drawRows, State.effAddr, memRead_illegal s (show 0xFFF < s.I.toNat + k by omega)]
      rw [show max (s.I.toNat + k) 4096 = s.I.toNat + k by omega]

theorem startColumn_lt (v : Byte) : startColumn v < 64 := by
  unfold startColumn
  split <;> omega

end Sys2Proof.Machine
end

