-- ==== Sys2Proof/Laws/Step.lean ====
section
/-! SUPPORT. Everything one call of the cycle operation can do (40_cycle.md R70), said once. -/

namespace Sys2Proof.Machine

/-- The word a legal fetch reads (20_memory.md R33). -/
abbrev State.fetchWord (s : State) : Word := wordOf (s.mem.get s.pc.toNat) (s.mem.get (s.pc.toNat + 1))

/-- The four ways a cycle goes: halted, a fetch that raises, a DecodeMiss, an instruction. -/
theorem step_cases (s : State) :
    (∃ f, s.FAULT = some f ∧ step s = .next s) ∨
    (s.FAULT = none ∧ 0xFFE < s.pc.toNat ∧ step s = .next (raise (.memory (max s.pc.toNat 0x1000) .fetch) s)) ∨
    (s.FAULT = none ∧ s.pc.toNat ≤ 0xFFE ∧ decode s.fetchWord = none ∧ step s = .next (tick (s.setPc (s.pc + 2)))) ∨
    (∃ i, s.FAULT = none ∧ s.pc.toNat ≤ 0xFFE ∧ decode s.fetchWord = some i ∧ step s = endOutcome (exec i s)) := by
  cases hF : s.FAULT with
  | some f => exact .inl ⟨f, rfl, by simp [step, hF]⟩
  | none =>
    refine .inr ?_
    by_cases hpc : s.pc.toNat ≤ 0xFFE
    · refine .inr ?_
      cases hd : decode s.fetchWord with
      | none => exact .inl ⟨rfl, hpc, rfl, by simp [step, hF, fetch_legal s hpc, hd, endCycle]⟩
      | some i => exact .inr ⟨i, rfl, hpc, rfl, by simp [step, hF, fetch_legal s hpc, hd]⟩
    · exact .inl ⟨rfl, by omega, by simp [step, hF, fetch_illegal s (show 0xFFE < s.pc.toNat by omega)]⟩

end Sys2Proof.Machine
end

