-- ==== Sys2Proof/Laws/PerInstr.lean ====
section
/-! SUPPORT. Statements about every instruction, one lemma per constructor. Family TableRow: the encoder's word lies in the row of
30_encoding.md R55 that the instruction stands for, its fixed bits as the row's `mask` and `match` give them. -/

namespace Sys2Proof.Laws.TableRow

/-- The word of an instruction selects the instruction's own row of the opcode map (R55). -/
def Statement (i : Instr) : Prop := (opcodeRow i).selects (encode i) = true

theorem ones4 (v : Nibble) : v &&& 0xF = v := BitVec.and_allOnes (x := v)
theorem ones8 (v : Byte) : v &&& 0xFF = v := BitVec.and_allOnes (x := v)

theorem mask_A (op : Nibble) (nnn : Addr) : encodeA op nnn &&& 0xF000 = op ++ (0 : BitVec 12) := by
  change (op ++ nnn) &&& ((0xF : BitVec 4) ++ (0 : BitVec 12)) = op ++ (0 : BitVec 12)
  rw [BitVec.and_append, ones4]
  simp

theorem mask_XK (op : Nibble) (x : Reg) (kk : Byte) : encodeXK op x kk &&& 0xF000 = op ++ (0 : BitVec 4) ++ (0 : BitVec 8) := by
  change (op ++ BitVec.ofFin (w := 4) x ++ kk) &&& ((0xF : BitVec 4) ++ (0 : BitVec 4) ++ (0 : BitVec 8)) = _
  rw [BitVec.and_append, BitVec.and_append, ones4]
  simp

theorem mask_X (op : Nibble) (x : Reg) (kk : Byte) : encodeXK op x kk &&& 0xF0FF = op ++ (0 : BitVec 4) ++ kk := by
  change (op ++ BitVec.ofFin (w := 4) x ++ kk) &&& ((0xF : BitVec 4) ++ (0 : BitVec 4) ++ (0xFF : BitVec 8)) = _
  rw [BitVec.and_append, BitVec.and_append, ones4, ones8]
  simp

theorem mask_XY (op : Nibble) (x y : Reg) (n : Nibble) :
    encodeXYN op x y n &&& 0xF00F = op ++ (0 : BitVec 4) ++ (0 : BitVec 4) ++ n := by
  change (op ++ BitVec.ofFin (w := 4) x ++ BitVec.ofFin (w := 4) y ++ n) &&&
    ((0xF : BitVec 4) ++ (0 : BitVec 4) ++ (0 : BitVec 4) ++ (0xF : BitVec 4)) =
    op ++ (0 : BitVec 4) ++ (0 : BitVec 4) ++ n
  rw [BitVec.and_append, BitVec.and_append, BitVec.and_append, ones4, ones4]
  simp

theorem mask_XYN (op : Nibble) (x y : Reg) (n : Nibble) :
    encodeXYN op x y n &&& 0xF000 = op ++ (0 : BitVec 4) ++ (0 : BitVec 4) ++ (0 : BitVec 4) := by
  change (op ++ BitVec.ofFin (w := 4) x ++ BitVec.ofFin (w := 4) y ++ n) &&&
    ((0xF : BitVec 4) ++ (0 : BitVec 4) ++ (0 : BitVec 4) ++ (0 : BitVec 4)) =
    op ++ (0 : BitVec 4) ++ (0 : BitVec 4) ++ (0 : BitVec 4)
  rw [BitVec.and_append, BitVec.and_append, BitVec.and_append, ones4]
  simp

/-- A row selects a word whose masked bits are its pattern. -/
theorem selects_of {r : OpcodeRow} {w : Word} (h : w &&& r.mask = r.pattern) : r.selects w = true := by
  simp [OpcodeRow.selects, h]

theorem sys (nnn : Addr) : Statement (.sys nnn) := selects_of (mask_A _ _)
theorem cls : Statement .cls := rfl
theorem ret : Statement .ret := rfl
theorem jp (nnn : Addr) : Statement (.jp nnn) := selects_of (mask_A _ _)
theorem call (nnn : Addr) : Statement (.call nnn) := selects_of (mask_A _ _)
theorem seImm (x : Reg) (kk : Byte) : Statement (.seImm x kk) := selects_of (mask_XK _ _ _)
theorem sneImm (x : Reg) (kk : Byte) : Statement (.sneImm x kk) := selects_of (mask_XK _ _ _)
theorem seReg (x y : Reg) : Statement (.seReg x y) := selects_of (mask_XYN _ _ _ _)
theorem ldImm (x : Reg) (kk : Byte) : Statement (.ldImm x kk) := selects_of (mask_XK _ _ _)
theorem addImm (x : Reg) (kk : Byte) : Statement (.addImm x kk) := selects_of (mask_XK _ _ _)
theorem ldReg (x y : Reg) : Statement (.ldReg x y) := selects_of (mask_XY _ _ _ _)
theorem or (x y : Reg) : Statement (.or x y) := selects_of (mask_XY _ _ _ _)
theorem and (x y : Reg) : Statement (.and x y) := selects_of (mask_XY _ _ _ _)
theorem xor (x y : Reg) : Statement (.xor x y) := selects_of (mask_XY _ _ _ _)
theorem addReg (x y : Reg) : Statement (.addReg x y) := selects_of (mask_XY _ _ _ _)
theorem sub (x y : Reg) : Statement (.sub x y) := selects_of (mask_XY _ _ _ _)
theorem shr (x y : Reg) : Statement (.shr x y) := selects_of (mask_XY _ _ _ _)
theorem subn (x y : Reg) : Statement (.subn x y) := selects_of (mask_XY _ _ _ _)
theorem shl (x y : Reg) : Statement (.shl x y) := selects_of (mask_XY _ _ _ _)
theorem sneReg (x y : Reg) : Statement (.sneReg x y) := selects_of (mask_XYN _ _ _ _)
theorem ldI (nnn : Addr) : Statement (.ldI nnn) := selects_of (mask_A _ _)
theorem jpV0 (nnn : Addr) : Statement (.jpV0 nnn) := selects_of (mask_A _ _)
theorem rnd (x : Reg) (kk : Byte) : Statement (.rnd x kk) := selects_of (mask_XK _ _ _)
theorem drw (x y : Reg) (n : Nibble) : Statement (.drw x y n) := selects_of (mask_XYN _ _ _ _)
theorem skp (x : Reg) : Statement (.skp x) := selects_of (mask_X _ _ _)
theorem sknp (x : Reg) : Statement (.sknp x) := selects_of (mask_X _ _ _)
theorem ldVxDT (x : Reg) : Statement (.ldVxDT x) := selects_of (mask_X _ _ _)
theorem ldVxK (x : Reg) : Statement (.ldVxK x) := selects_of (mask_X _ _ _)
theorem ldDTVx (x : Reg) : Statement (.ldDTVx x) := selects_of (mask_X _ _ _)
theorem ldSTVx (x : Reg) : Statement (.ldSTVx x) := selects_of (mask_X _ _ _)
theorem addI (x : Reg) : Statement (.addI x) := selects_of (mask_X _ _ _)
theorem ldF (x : Reg) : Statement (.ldF x) := selects_of (mask_X _ _ _)
theorem ldB (x : Reg) : Statement (.ldB x) := selects_of (mask_X _ _ _)
theorem ldMemVx (x : Reg) : Statement (.ldMemVx x) := selects_of (mask_X _ _ _)
theorem ldVxMem (x : Reg) : Statement (.ldVxMem x) := selects_of (mask_X _ _ _)

end Sys2Proof.Laws.TableRow
end

