-- ==== Sys2Proof/Laws/Ports.lean ====
section
/-! SUPPORT. The accesses and transactions of a cycle (20_memory.md R34, R39, R43): which accesses reach the port, and what a read or a
write transaction carries. -/

namespace Sys2Proof.Machine

/-- The transaction of a legal access is a write where the access is one, at the access's own offset, and carries the byte moved. -/
theorem performed_spec (a : Access) (b : Byte) (h : a.2 ≤ 0xFFF) :
    (performed a b).memAddr.toNat = a.2 ∧ (performed a b).memWr = (a.1 == .write) ∧ (performed a b).memRd = (a.1 != .write) ∧
      ((performed a b).memRdata = some b ∨ (performed a b).memWdata = some b) := by
  obtain ⟨k, n⟩ := a
  have hn : n % 4096 = n := Nat.mod_eq_of_lt (by simp only at h; omega)
  cases k <;>
    simp [performed, Transaction.memAddr, Transaction.memWr, Transaction.memRd, Transaction.memRdata, Transaction.memWdata, hn]

/-- Only legal accesses reach the port. -/
theorem mem_transactions {l : List Access} {a : Access} (h : a ∈ transactions l) : a.2 ≤ 0xFFF := by
  induction l with
  | nil => exact absurd h List.not_mem_nil
  | cons b l ih =>
    simp only [transactions, List.takeWhile_cons] at h ih
    split at h
    · next hb =>
      rcases List.mem_cons.mp h with rfl | h'
      · exact (legalOffset_iff _).mp hb
      · exact ih h'
    · exact absurd h List.not_mem_nil

/-- Where every access is legal, all of them reach it. -/
theorem transactions_of_legal {l : List Access} (h : ∀ a ∈ l, a.2 ≤ 0xFFF) : transactions l = l := by
  induction l with
  | nil => rfl
  | cons a l ih =>
    have ha : legalOffset a.2 = true := (legalOffset_iff _).mpr (h a (List.mem_cons_self ..))
    have hl := ih fun b hb => h b (List.mem_cons_of_mem _ hb)
    simp only [transactions] at hl
    simp only [transactions, List.takeWhile_cons, ha, if_true, hl]

/-- The accesses that reach the port are the first ones of the list. -/
theorem transactions_prefix (l : List Access) : ∃ rest, l = transactions l ++ rest :=
  ⟨_, (List.takeWhile_append_dropWhile (p := fun a : Access => legalOffset a.2) (l := l)).symm⟩

/-- Reads, each with the byte memory holds at its offset; a shorter list of reads takes the first bytes only. -/
theorem zipWith_performed_bytesRead (s : State) (l rest : List Access) :
    List.zipWith performed l (bytesRead s (l ++ rest)) = l.map (fun a => performed a (s.mem.get a.2)) := by
  induction l with
  | nil => rfl
  | cons a l ih => exact congrArg (performed a (s.mem.get a.2) :: ·) ih

theorem mem_ascending {k : AccessKind} {a span : Nat} {p : Access} :
    p ∈ ascending k a span ↔ p.1 = k ∧ a ≤ p.2 ∧ p.2 < a + span := by
  obtain ⟨q, n⟩ := p
  simp only [ascending, List.mem_map, List.mem_range, Prod.mk.injEq]
  constructor
  · rintro ⟨j, hj, rfl, rfl⟩
    exact ⟨rfl, by omega, by omega⟩
  · rintro ⟨rfl, h1, h2⟩
    exact ⟨n - a, by omega, rfl, by omega⟩

theorem ascending_succ (k : AccessKind) (a span : Nat) : ascending k a (span + 1) = (k, a) :: ascending k (a + 1) span := by
  simp only [ascending, List.range_succ_eq_map, List.map_cons, List.map_map, Nat.add_zero, List.cons.injEq, true_and]
  apply List.map_congr_left
  intro j _
  simp only [Function.comp_apply, Prod.mk.injEq, true_and]
  omega

/-- Performing the writes of a multi-byte store that is in range is that store (20_memory.md R37). -/
theorem foldl_writes (m : Memory) (a : Nat) (bs : List Byte) (h : a + bs.length ≤ 0x1000) :
    (List.zipWith performed (ascending .write a bs.length) bs).foldl Memory.afterTransaction m = m.setBytes a bs := by
  induction bs generalizing m a with
  | nil => rfl
  | cons b bs ih =>
    simp only [List.length_cons] at h
    have ha : a % 4096 = a := Nat.mod_eq_of_lt (by omega)
    rw [List.length_cons, ascending_succ, List.zipWith_cons_cons, List.foldl_cons, ih _ (a + 1) (by omega)]
    simp [performed, Memory.afterTransaction, Memory.setBytes, ha]

/-- A halted block makes no transaction (40_cycle.md R77). -/
theorem cycleTransactions_halted {s : State} (h : s.FAULT ≠ none) : cycleTransactions s = [] := by
  obtain ⟨f, hf⟩ := Option.ne_none_iff_exists'.mp h
  simp only [cycleTransactions, fetchTransactions, fetchAccesses, executed, hf, List.zipWith_nil_left, List.append_nil]
  split <;> rfl

end Sys2Proof.Machine
end

