-- ==== Sys2Proof/Tests/Slice0.lean ====
section
/-! SUPPORT. The model's own tests: ill-formed terms, words written out from the spec, vectors of 95_test_vectors.md (each test names its
row), and for every obligation with hypotheses a state that meets them all. Expected values are the spec's, none is the model's. -/

namespace Sys2Proof.Tests

open Sys2Proof.Machine

/-! ## A state builder -/

/-- The reset state with the word `w` at `pc` = 0x200 (95_test_vectors.md, conventions). -/
def at200 (w : Word) : State := placeWord State.reset w

/-- Set general registers. -/
def regs (l : List (Reg × Byte)) (s : State) : State := l.foldl (fun s p => s.setReg p.1 p.2) s

/-- Store bytes from offset `a` on. -/
def poke (a : Nat) (bs : List Byte) (s : State) : State := s.setMem (s.mem.setBytes a bs)

/-- The host's script for the next cycle: key levels and random byte. -/
def feed (key : BitVec 16) (rnd : Byte) (s : State) : State := { s with inputs := [⟨key, rnd⟩] }

/-- The state one cycle later. -/
def after (s : State) : State :=
  match step s with
  | .next t => t
  | .fault _ => s
  | .refused _ => s

/-! ## WellFormed: each check refuses its ill-formed term -/

theorem test_sys_may_not_spell_cls : (Instr.sys 0x0E0).wellFormed = false := by decide
theorem test_sys_may_not_spell_ret : (Instr.sys 0x0EE).wellFormed = false := by decide
theorem test_other_sys_is_well_formed : (Instr.sys 0x1E0).wellFormed = true := by decide

/-! ## Decoding: one word per form (95_test_vectors.md section 2.6) -/

theorem test_decode_sys : decode 0x00E1 = some (.sys 0x0E1) := by decide
theorem test_decode_cls : decode 0x00E0 = some .cls := by decide
theorem test_decode_ret : decode 0x00EE = some .ret := by decide
theorem test_decode_jp : decode 0x1234 = some (.jp 0x234) := by decide
theorem test_decode_call : decode 0x2FFF = some (.call 0xFFF) := by decide
theorem test_decode_seImm : decode 0x3A7F = some (.seImm 10 0x7F) := by decide
theorem test_decode_sneImm : decode 0x4B80 = some (.sneImm 11 0x80) := by decide
theorem test_decode_seReg : decode 0x5CD0 = some (.seReg 12 13) := by decide
theorem test_decode_ldImm : decode 0x6E12 = some (.ldImm 14 0x12) := by decide
theorem test_decode_addImm : decode 0x7F34 = some (.addImm 15 0x34) := by decide
theorem test_decode_ldReg : decode 0x8AB0 = some (.ldReg 10 11) := by decide
theorem test_decode_or : decode 0x8AB1 = some (.or 10 11) := by decide
theorem test_decode_and : decode 0x8AB2 = some (.and 10 11) := by decide
theorem test_decode_xor : decode 0x8AB3 = some (.xor 10 11) := by decide
theorem test_decode_addReg : decode 0x8AB4 = some (.addReg 10 11) := by decide
theorem test_decode_sub : decode 0x8AB5 = some (.sub 10 11) := by decide
theorem test_decode_shr : decode 0x8AB6 = some (.shr 10 11) := by decide
theorem test_decode_subn : decode 0x8AB7 = some (.subn 10 11) := by decide
theorem test_decode_shl : decode 0x8ABE = some (.shl 10 11) := by decide
theorem test_decode_sneReg : decode 0x9CD0 = some (.sneReg 12 13) := by decide
theorem test_decode_ldI : decode 0xA123 = some (.ldI 0x123) := by decide
theorem test_decode_jpV0 : decode 0xB123 = some (.jpV0 0x123) := by decide
theorem test_decode_rnd : decode 0xC1F0 = some (.rnd 1 0xF0) := by decide
theorem test_decode_drw : decode 0xD12F = some (.drw 1 2 15) := by decide
theorem test_decode_skp : decode 0xE19E = some (.skp 1) := by decide
theorem test_decode_sknp : decode 0xE1A1 = some (.sknp 1) := by decide
theorem test_decode_ldVxDT : decode 0xF107 = some (.ldVxDT 1) := by decide
theorem test_decode_ldVxK : decode 0xF10A = some (.ldVxK 1) := by decide
theorem test_decode_ldDTVx : decode 0xF115 = some (.ldDTVx 1) := by decide
theorem test_decode_ldSTVx : decode 0xF118 = some (.ldSTVx 1) := by decide
theorem test_decode_addI : decode 0xF11E = some (.addI 1) := by decide
theorem test_decode_ldF : decode 0xF129 = some (.ldF 1) := by decide
theorem test_decode_ldB : decode 0xF133 = some (.ldB 1) := by decide
theorem test_decode_ldMemVx : decode 0xF155 = some (.ldMemVx 1) := by decide
theorem test_decode_ldVxMem : decode 0xF165 = some (.ldVxMem 1) := by decide
theorem test_decode_misses_family8 : [0x8AB8, 0x8AB9, 0x8ABA, 0x8ABB, 0x8ABC, 0x8ABD, 0x8ABF].map decode = List.replicate 7 none := by
  decide
theorem test_decode_misses_familyE_F :
    [0xE19F, 0xE100, 0xE1FF, 0xF100, 0xF108, 0xF10B, 0xF175, 0xF185, 0xF1FF].map decode = List.replicate 9 none := by decide
theorem test_decode_bytes_big_endian : decodeBytes [0x60, 0x05, 0x70] = .ok (.ldImm 0 0x05, [0x70]) := rfl
theorem test_decode_bytes_truncated : decodeBytes [0x60] = .error .truncated := rfl
theorem test_decode_table_word : decodeTableWord 16 0xD12F = some (.drw 1 2 15) := by decide

/-! ## Control transfer and skips (section 2.1) -/

theorem test_sys_F1 : let t := after { at200 0x0123 with DT := 2 }; t.pc = 0x202 ∧ t.DT = 1 := by decide
theorem test_ret_F2 : let t := after { at200 0x00EE with stack := [0x0456, 0x0300] }; t.pc = 0x0456 ∧ t.stack = [0x0300] := by decide
theorem test_ret_F3 : let t := after (at200 0x00EE); t.FAULT = some .stackUnderflow ∧ t.pc = 0x200 := by decide
theorem test_jp_F4 : (after (at200 0x1ABC)).pc = 0x0ABC := by decide
theorem test_jp_F5 : let t := after { at200 0x1200 with DT := 1 }; t.pc = 0x200 ∧ t.DT = 0 := by decide
theorem test_call_F6 : let t := after (placeWord { State.reset with pc := 0x2F0, stack := [0x0204] } 0x2ABC);
    t.pc = 0x0ABC ∧ t.stack = [0x02F2, 0x0204] := by decide
theorem test_call_F7 : let t := after { at200 0x2ABC with stackDepth := some 2, stack := [2, 1] };
    t.FAULT = some .stackOverflow ∧ t.pc = 0x200 ∧ t.stack = [2, 1] := by decide
theorem test_seImm_F8 : (after (regs [(10, 0x42)] (at200 0x3A42))).pc = 0x204 := by decide
theorem test_seImm_F9 : (after (regs [(10, 0x43)] (at200 0x3A42))).pc = 0x202 := by decide
theorem test_sneImm_F10 : (after (regs [(10, 0x42)] (at200 0x4A42))).pc = 0x202 := by decide
theorem test_sneImm_F11 : (after (regs [(10, 0x43)] (at200 0x4A42))).pc = 0x204 := by decide
theorem test_seReg_F13 : (after (regs [(1, 7), (2, 8)] (at200 0x5120))).pc = 0x202 := by decide
theorem test_seReg_F15 : (after (regs [(1, 7), (2, 7)] (at200 0x512F))).pc = 0x204 := by decide
theorem test_sneReg_F16 : (after (regs [(1, 7), (2, 8)] (at200 0x9120))).pc = 0x204 := by decide
theorem test_sneReg_F17 : (after (regs [(1, 7), (2, 7)] (at200 0x9120))).pc = 0x202 := by decide
theorem test_jpV0_F18 : (after (regs [(0, 0xFF)] (at200 0xB300))).pc = 0x03FF := by decide
theorem test_jpV0_F19 : let t := after (regs [(0, 0xFF)] (at200 0xBFFF));
    t.pc = 0x10FE ∧ (after t).FAULT = some (.memory 0x10FE .fetch) := by decide
theorem test_fetch_F22 : let t := after { State.reset with pc := 0xFFF }; t.FAULT = some (.memory 0x1000 .fetch) ∧ t.pc = 0xFFF := by
  decide

/-! ## Registers, ALU and RND (section 2.2) -/

theorem test_ldImm_F21 : let t := after (placeWord { State.reset with pc := 0xFFE } 0x6A01); t.reg 10 = 1 ∧ t.pc = 0x1000 := by decide
theorem test_ldImm_F24 : let t := after (placeWord { State.reset with pc := 0x201 } 0x6A01); t.reg 10 = 1 ∧ t.pc = 0x203 := by decide
theorem test_addImm_A2 : let t := after (regs [(10, 0xFF), (15, 1)] (at200 0x7A01)); t.reg 10 = 0 ∧ t.reg 15 = 1 := by decide
theorem test_addImm_A3 : (after (regs [(15, 0xF8)] (at200 0x7F10))).reg 15 = 0x08 := by decide
theorem test_ldReg_A4 : (after (regs [(1, 0x01), (2, 0x80)] (at200 0x8120))).reg 1 = 0x80 := by decide
theorem test_or_A5 : let t := after (regs [(1, 0x0F), (2, 0xF0), (15, 1)] (at200 0x8121)); t.reg 1 = 0xFF ∧ t.reg 15 = 1 := by decide
theorem test_and_A6 : let t := after (regs [(1, 0x3C), (2, 0x0F), (15, 1)] (at200 0x8122)); t.reg 1 = 0x0C ∧ t.reg 15 = 1 := by decide
theorem test_xor_A7 : let t := after (regs [(1, 0xFF), (2, 0x0F), (15, 1)] (at200 0x8123)); t.reg 1 = 0xF0 ∧ t.reg 15 = 1 := by decide
theorem test_addReg_A10 : let t := after (regs [(1, 0x80), (2, 0x7F), (15, 1)] (at200 0x8124)); t.reg 1 = 0xFF ∧ t.reg 15 = 0 := by decide
theorem test_addReg_A13 : (after (regs [(1, 0x20), (15, 0xF0)] (at200 0x8F14))).reg 15 = 1 := by decide
theorem test_sub_A17 : let t := after (regs [(1, 0x10), (2, 0x10), (15, 1)] (at200 0x8125)); t.reg 1 = 0 ∧ t.reg 15 = 0 := by decide
theorem test_sub_A18 : let t := after (regs [(1, 0x01), (2, 0x10)] (at200 0x8125)); t.reg 1 = 0xF1 ∧ t.reg 15 = 0 := by decide
theorem test_subn_A20 : let t := after (regs [(1, 0x01), (2, 0x10), (15, 1)] (at200 0x8127)); t.reg 1 = 0x0F ∧ t.reg 15 = 0 := by decide
theorem test_subn_A21 : let t := after (regs [(1, 0x10), (2, 0x01)] (at200 0x8127)); t.reg 1 = 0xF1 ∧ t.reg 15 = 1 := by decide
theorem test_shr_A23 : let t := after (regs [(1, 0xFF), (2, 0x05)] (at200 0x8126)); t.reg 1 = 2 ∧ t.reg 2 = 5 ∧ t.reg 15 = 1 := by decide
theorem test_shr_A27 : let t := after (regs [(15, 0x07)] (at200 0x81F6)); t.reg 1 = 3 ∧ t.reg 15 = 1 := by decide
theorem test_shl_A28 : let t := after (regs [(2, 0x81)] (at200 0x812E)); t.reg 1 = 2 ∧ t.reg 2 = 0x81 ∧ t.reg 15 = 1 := by decide
theorem test_shl_A30 : let t := after (regs [(1, 0x81)] (at200 0x8F1E)); t.reg 15 = 1 ∧ t.reg 1 = 0x81 := by decide
theorem test_rnd_A31 : (after (feed 0 0xA7 (regs [(3, 0xFF)] (at200 0xC30F)))).reg 3 = 0x07 := by decide
theorem test_rnd_A33 : (after (feed 0 0xA7 (at200 0xC3FF))).reg 3 = 0xA7 := by decide
theorem test_decodeMiss_A34 : let t := after { regs [(1, 1), (2, 2)] (at200 0x8128) with DT := 1, ST := 5 };
    t.pc = 0x202 ∧ t.DT = 0 ∧ t.ST = 4 ∧ t.reg 1 = 1 ∧ t.FAULT = none := by decide

/-! ## Index register and memory (section 2.3) -/

theorem test_ldI_M1 : (after { at200 0xA123 with I := 0xFFFF }).I = 0x0123 := by decide
theorem test_addI_M2 : (after { regs [(1, 0x10)] (at200 0xF11E) with I := 0x0FF8 }).I = 0x1008 := by decide
theorem test_addI_M3 : let t := after { regs [(1, 0xFF)] (at200 0xF11E) with I := 0xFF80 }; t.I = 0x007F ∧ t.reg 15 = 0 := by decide
theorem test_ldF_M5 : (after (regs [(1, 0x0A)] (at200 0xF129))).I = 0x0032 := by decide
theorem test_ldF_M6 : (after (regs [(1, 0xFF)] (at200 0xF129))).I = 0x04FB := by decide
theorem test_ldB_M10 : let t := after { regs [(1, 255)] (at200 0xF133) with I := 0xFFD };
    [0xFFD, 0xFFE, 0xFFF].map t.mem.get = [2, 5, 5] ∧ t.I = 0xFFD ∧ t.FAULT = none := by decide
theorem test_ldB_M11 : let t := after { regs [(1, 255)] (at200 0xF133) with I := 0xFFE };
    t.FAULT = some (.memory 0x1000 .write) ∧ t.pc = 0x200 ∧ t.I = 0xFFE := by decide
theorem test_ldMemVx_M12 : let t := after { regs [(0, 0x11), (1, 0x22), (2, 0x33), (3, 0x44), (4, 0x55)] (at200 0xF355) with I := 0x400 };
    [0x400, 0x401, 0x402, 0x403, 0x404].map t.mem.get = [0x11, 0x22, 0x33, 0x44, 0] ∧ t.I = 0x404 := by decide
theorem test_ldMemVx_M14 : let t := after { regs [(0, 0xAB), (1, 0xCD)] (at200 0xF155) with I := 0xFFF };
    t.FAULT = some (.memory 0x1000 .write) ∧ t.pc = 0x200 ∧ t.reg 0 = 0xAB ∧ t.reg 1 = 0xCD := by decide
theorem test_ldVxMem_M16 : let t := after { poke 0x400 [0xDE, 0xAD, 0xBE, 0xEF, 0x99] (at200 0xF365) with I := 0x400 };
    [0, 1, 2, 3, 4].map t.reg = [0xDE, 0xAD, 0xBE, 0xEF, 0] ∧ t.I = 0x404 := by decide
theorem test_ldVxMem_M17 : let t := after (at200 0xF465); [0, 1, 2, 3, 4].map t.reg = [0xF0, 0x90, 0x90, 0x90, 0xF0] ∧ t.I = 5 := by decide

/-! ## Display (section 2.4) -/

/-- A buffer with one pixel set. -/
def onePixel (px py : Nat) : Display := Display.blank.toggle px py

theorem test_cls_G1 : let t := after { regs [(15, 1)] (at200 0x00E0) with disp := onePixel 63 31 };
    t.disp.pixel 63 31 = false ∧ t.reg 15 = 1 := by decide
theorem test_drw_G8 : let t := after { poke 0x300 [0x10] (at200 0xD011) with disp := onePixel 3 0, I := 0x300 };
    t.disp.pixel 3 0 = false ∧ t.reg 15 = 1 := by decide
theorem test_drw_G10 : let t := after { poke 0x300 [0x3F] (regs [(0, 62)] (at200 0xD011)) with disp := onePixel 62 0, I := 0x300 };
    t.disp.pixel 62 0 = true ∧ t.disp.pixel 63 0 = false ∧ t.disp.pixel 0 1 = false ∧ t.reg 15 = 0 := by decide

/-! ## Keys and timers (section 2.5) -/

theorem test_skp_K2 : (after (feed 0xFFF7 0 (regs [(5, 3)] (at200 0xE59E)))).pc = 0x202 := by decide
theorem test_skp_K4 : let t := after (feed 0xFFFF 0 (regs [(5, 16)] (at200 0xE59E))); t.FAULT = some (.key 16) ∧ t.pc = 0x200 := by decide
theorem test_sknp_K5 : (after (feed 0 0 (regs [(5, 3)] (at200 0xE5A1)))).pc = 0x204 := by decide
theorem test_sknp_K6 : (after (feed 0x0008 0 (regs [(5, 3)] (at200 0xE5A1)))).pc = 0x202 := by decide
theorem test_ldVxK_K8 : let t := after (feed 0x0008 0 { regs [(5, 3)] (at200 0xF50A) with DT := 5 });
    t.pc = 0x202 ∧ t.DT = 4 ∧ t.reg 5 = 3 := by decide
theorem test_ldVxK_K9 : (after (feed 0xFFF7 0 (regs [(5, 3)] (at200 0xF50A)))).pc = 0x200 := by decide
theorem test_ldVxDT_K11 : let t := after { at200 0xF307 with DT := 0x10 }; t.reg 3 = 0x10 ∧ t.DT = 0x0F := by decide
theorem test_ldDTVx_K14 : (after (regs [(3, 0x3C)] (at200 0xF315))).DT = 0x3B := by decide
theorem test_ldSTVx_K18 : let t := after { regs [(3, 2)] (at200 0xF318) with DT := 7 }; t.ST = 1 ∧ t.DT = 6 := by decide

/-! ## The memory port (20_memory.md R39, R43; example S7 and row M18 of 95_test_vectors.md) -/

theorem test_port_of_LD_B_S7 : cycleTransactions { regs [(1, 157)] (at200 0xF133) with I := 0x300 } =
    [.read 0x200 0xF1, .read 0x201 0x33, .write 0x300 1, .write 0x301 5, .write 0x302 7] := by decide
theorem test_port_stops_before_the_illegal_read_M18 :
    let s := { poke 0xFFF [0x77] (at200 0xF165) with I := 0xFFF }
    cycleTransactions s = [.read 0x200 0xF1, .read 0x201 0x65, .read 0xFFF 0x77] ∧ cycleTransactions (after s) = [] := by decide

/-! ## Fetching the host's word -/

theorem test_withFetchWord_runs_at_once : let t := after (State.reset.withFetchWord 16 0x6005); t.reg 0 = 5 ∧ t.pc = 0x202 := by decide

/-! ## Witnesses: for each obligation with hypotheses, concrete states and operands that meet all of them together, one a clause -/

theorem witness_DecodingAnEncodedInstructionGivesItBack :
    (Instr.sys 0x1E0).wellFormed = true ∧ (Instr.drw 1 2 15).wellFormed = true ∧ (Instr.ldVxMem 15).wellFormed = true := by decide

theorem witness_EncodingADecodedWordGivesTheWordBack :
    decode 0x512F = some (.seReg 1 2) ∧ decode 0x912F = some (.sneReg 1 2) ∧ decode 0x8AB7 = some (.subn 10 11) := by decide

theorem witness_WordsSelectTheirRowOfTheMap :
    decode 0x8AB7 = some (.subn 10 11) ∧ (opcodeRow (.sys 0)).selects 0x00E0 = true ∧ (opcodeRow (.sys 0)).selects 0x00EE = true ∧
      (opcodeRow (.ldF 0)).selects 0xF129 = true := by decide

/-- At the last legal fetch offset, for an instruction that does not raise and for one that does. -/
theorem witness_StepRunsTheDecodedInstruction :
    (let s := placeWord { State.reset with pc := 0xFFE } 0x6A01
     s.FAULT = none ∧ s.pc.toNat ≤ 0xFFE ∧ decode s.fetchWord = some (.ldImm 10 1)) ∧
    (let s := at200 0x00EE
     s.FAULT = none ∧ s.pc.toNat ≤ 0xFFE ∧ decode s.fetchWord = some .ret) := by decide

theorem witness_SysAndDecodeMissAreNoOperations :
    (let s := placeWord { State.reset with pc := 0xFFE } 0x8128
     s.FAULT = none ∧ s.pc.toNat ≤ 0xFFE ∧ decode s.fetchWord = none) ∧
    (let s := at200 0x0123
     s.FAULT = none ∧ s.pc.toNat ≤ 0xFFE ∧ decode s.fetchWord = some (.sys 0x123)) := by decide

theorem witness_FetchIsBigEndianAndFaultsPastTheEnd :
    ({ State.reset with pc := 0xFFE } : State).pc.toNat ≤ 0xFFE ∧
    (let s := { State.reset with pc := 0xFFF }; s.FAULT = none ∧ 0xFFE < s.pc.toNat) ∧
    (let s := { State.reset with pc := 0x1000 }; s.FAULT = none ∧ 0xFFE < s.pc.toNat) := by decide

theorem witness_HaltedBlockNeverMoves : (after (at200 0x00EE)).FAULT ≠ none := by decide

/-- A cycle that writes each timer, one that writes neither, and one that raises. -/
theorem witness_TimersTickOncePerCycle :
    (∃ t, step (at200 0xF315) = .next t ∧ t.FAULT = none) ∧ (∃ t, step (at200 0xF318) = .next t ∧ t.FAULT = none) ∧
    (∃ t, step (at200 0x00E0) = .next t ∧ t.FAULT = none) ∧ ∃ t, step (at200 0x00EE) = .next t ∧ t.FAULT ≠ none :=
  ⟨⟨_, rfl, rfl⟩, ⟨_, rfl, rfl⟩, ⟨_, rfl, rfl⟩, ⟨_, rfl, by decide⟩⟩

/-- A cycle from a state of the invariant, and a state at its bounds: a full stack that holds 0x1000, the greatest `pc`. -/
theorem witness_StepKeepsTheInvariant :
    (∃ t, (at200 0x00EE).inv = true ∧ step (at200 0x00EE) = .next t) ∧
    ({ State.reset with stack := [0x1000], stackDepth := some 1, pc := 0x10FE } : State).inv = true :=
  ⟨⟨_, by decide, rfl⟩, by decide⟩

/-- The longest image and the empty one start; one byte more is refused. -/
theorem witness_BootPlacesGlyphsAndImage :
    (∃ s, boot defaultFont (List.replicate 3584 1) none = some s) ∧ (∃ s, boot defaultFont [] (some 16) = some s) ∧
      boot defaultFont (List.replicate 3585 1) none = none := by
  refine ⟨⟨_, if_pos ⟨rfl, by rw [List.length_replicate]; decide⟩⟩, ⟨_, if_pos ⟨rfl, by decide⟩⟩, if_neg fun h => ?_⟩
  rw [List.length_replicate] at h
  exact absurd h.2 (by decide)

theorem witness_FaultsAreRaisedExactlyWhenTheTableSays : State.reset.FAULT = none := rfl

/-- A MemoryFault on the second byte and, on the same access list, none one offset lower. -/
theorem witness_MemoryFaultNamesTheFirstIllegalAccess :
    (∃ t, exec (.ldB 1) { State.reset with I := 0xFFE } = .next t ∧ t.FAULT = some (.memory 0x1000 .write)) ∧
    (∃ t, exec (.ldB 1) { State.reset with I := 0xFFD } = .next t ∧ t.FAULT = none) :=
  ⟨⟨_, rfl, rfl⟩, ⟨_, rfl, rfl⟩⟩

theorem witness_FaultIsPreciseAndFinal :
    (∃ t, step (at200 0x00EE) = .next t ∧ t.FAULT = some .stackUnderflow) ∧
    (∃ t, step { at200 0xF165 with I := 0xFFF } = .next t ∧ t.FAULT = some (.memory 0x1000 .read)) :=
  ⟨⟨_, rfl, rfl⟩, ⟨_, rfl, rfl⟩⟩

/-- One raise for each clause. -/
theorem witness_FaultLeavesTheRestUnchanged :
    (∃ t, exec (.call 0) { State.reset with stackDepth := some 0 } = .next t ∧ t.FAULT = some .stackOverflow) ∧
    (∃ t, exec .ret State.reset = .next t ∧ t.FAULT = some .stackUnderflow) ∧
    (∃ t, exec (.skp 5) (regs [(5, 16)] State.reset) = .next t ∧ t.FAULT = some (.key 16)) ∧
    (∃ t, exec (.sknp 5) (regs [(5, 255)] State.reset) = .next t ∧ t.FAULT = some (.key 255)) ∧
    (∃ t, exec (.ldVxK 5) (regs [(5, 16)] State.reset) = .next t ∧ t.FAULT = some (.key 16)) ∧
    (∃ t, exec (.ldB 1) { State.reset with I := 0xFFE } = .next t ∧ t.FAULT = some (.memory 0x1000 .write)) ∧
    (∃ t, exec (.ldMemVx 1) { State.reset with I := 0xFFF } = .next t ∧ t.FAULT = some (.memory 0x1000 .write)) ∧
    (∃ t, exec (.ldVxMem 1) { State.reset with I := 0xFFF } = .next t ∧ t.FAULT = some (.memory 0x1000 .read)) ∧
    ∃ t, exec (.drw 1 2 2) { State.reset with I := 0xFFF } = .next t ∧ t.FAULT = some (.memory 0x1000 .read) :=
  ⟨⟨_, rfl, rfl⟩, ⟨_, rfl, rfl⟩, ⟨_, rfl, rfl⟩, ⟨_, rfl, rfl⟩, ⟨_, rfl, rfl⟩, ⟨_, rfl, rfl⟩, ⟨_, rfl, rfl⟩, ⟨_, rfl, rfl⟩, ⟨_, rfl, rfl⟩⟩

/-- An instruction that faults midway, one that makes all its accesses. -/
theorem witness_TransactionsStopBeforeTheIllegalAccess :
    (∃ t, exec (.ldMemVx 1) { State.reset with I := 0xFFF } = .next t ∧ t.FAULT = some (.memory 0x1000 .write)) ∧
    (∃ t, exec (.ldMemVx 15) { State.reset with I := 0xFF0 } = .next t ∧ t.FAULT = none) :=
  ⟨⟨_, rfl, rfl⟩, ⟨_, rfl, rfl⟩⟩

/-- A cycle that fetches and stores, one that fetches and reads, one on a DecodeMiss, and a halted block. -/
theorem witness_PortCarriesTheAccessesOfTheCycle :
    (∃ t, step { at200 0xF355 with I := 0x400 } = .next t ∧ t.FAULT = none) ∧
    (∃ t, step { at200 0xD012 with I := 0xFFE } = .next t ∧ t.FAULT = none) ∧ (∃ t, step (at200 0x8128) = .next t ∧ t.FAULT = none) ∧
    .read 0x200 0x81 ∈ cycleTransactions (at200 0x8128) ∧ ({ at200 0xF355 with FAULT := some .stackOverflow } : State).FAULT ≠ none :=
  ⟨⟨_, rfl, rfl⟩, ⟨_, rfl, rfl⟩, ⟨_, rfl, rfl⟩, by decide, nofun⟩

/-- One state for each record, at the bounds the invariant gives it. -/
theorem witness_PortsShowTheFaultRecord :
    State.reset.inv = true ∧ [Fault.memory 0x1000 .write, .memory 0x1000E .read, .stackOverflow, .stackUnderflow, .key 16, .key 255].all
      (fun f => ({ State.reset with FAULT := some f } : State).inv) = true := by decide

theorem witness_OnlyTheNamedGeneralRegistersChange :
    (∃ t, exec (.addReg 1 2) State.reset = .next t ∧ writesReg (.addReg 1 2) 3 = false) ∧
    (∃ t, exec (.ldVxMem 14) State.reset = .next t ∧ writesReg (.ldVxMem 14) 15 = false) ∧
    ∃ t, exec .cls State.reset = .next t ∧ writesReg .cls 15 = false :=
  ⟨⟨_, rfl, rfl⟩, ⟨_, rfl, rfl⟩, ⟨_, rfl, rfl⟩⟩

/-- `DRW` writes none of `I`, the stack, DT and ST. -/
theorem witness_OnlyTheNamedSpecialRegistersChange :
    ∃ t, exec (.drw 1 2 3) State.reset = .next t ∧ writesI (.drw 1 2 3) = false ∧ (∀ nnn, Instr.drw 1 2 3 ≠ .call nnn) ∧
      Instr.drw 1 2 3 ≠ .ret ∧ (∀ x, Instr.drw 1 2 3 ≠ .ldDTVx x) ∧ (∀ x, Instr.drw 1 2 3 ≠ .ldSTVx x) :=
  ⟨_, rfl, rfl, nofun, nofun, nofun, nofun⟩

/-- The offsets just outside what each store writes, and any offset for an instruction that stores nothing. -/
theorem witness_OnlyTheStoredBytesChange :
    (∃ t, exec (.ldB 1) { State.reset with I := 0x300 } = .next t ∧ 0x2FF < ({ State.reset with I := 0x300 } : State).effAddr 0 ∧
      ({ State.reset with I := 0x300 } : State).effAddr 0 + 3 ≤ 0x303) ∧
    (∃ t, exec (.ldMemVx 3) { State.reset with I := 0x400 } = .next t ∧ 0x3FF < ({ State.reset with I := 0x400 } : State).effAddr 0 ∧
      ({ State.reset with I := 0x400 } : State).effAddr 0 + ((3 : Reg).val + 1) ≤ 0x404) ∧
    ∃ t, exec (.drw 1 2 3) State.reset = .next t :=
  ⟨⟨_, rfl, by decide, by decide⟩, ⟨_, rfl, by decide, by decide⟩, ⟨_, rfl⟩⟩

/-- An instruction that is neither CLS nor DRW; a pixel one column outside a sprite's footprint. -/
theorem witness_OnlyClsAndDrwChangeTheDisplay :
    (∃ t, exec (.ldImm 1 2) State.reset = .next t ∧ Instr.ldImm 1 2 ≠ .cls ∧ ∀ x y n, Instr.ldImm 1 2 ≠ .drw x y n) ∧
    ∃ t, exec (.drw 1 2 3) State.reset = .next t ∧
      inFootprint (startColumn (State.reset.reg 1)) (State.reset.reg 2).toNat (3 : Nibble).toNat 8 0 = false :=
  ⟨⟨_, rfl, nofun, nofun⟩, ⟨_, rfl, by decide⟩⟩

/-- A flag writer whose destination is VF, and a draw with VF as its column. -/
theorem witness_FlagWritersLeaveZeroOrOneInVF :
    (∃ t, exec (.shl 15 1) State.reset = .next t ∧ t.FAULT = none) ∧ ∃ t, exec (.drw 15 1 0) State.reset = .next t ∧ t.FAULT = none :=
  ⟨⟨_, rfl, rfl⟩, ⟨_, rfl, rfl⟩⟩

/-- One instruction for each clause. -/
theorem witness_OnlyRedirectingInstructionsLeaveTheDefaultAdvance :
    State.reset.FAULT = none ∧ (∃ t, exec (.jp 0xFFF) State.reset = .next t ∧ t.FAULT = none) ∧
    (∃ t, exec (.call 0xFFF) State.reset = .next t ∧ t.FAULT = none) ∧
    (∃ t, exec .ret { State.reset with stack := [0x1000] } = .next t ∧ t.FAULT = none) ∧
    (∃ t, exec (.jpV0 0xFFF) State.reset = .next t ∧ t.FAULT = none) ∧ (∃ t, exec (.skp 1) State.reset = .next t ∧ t.FAULT = none) ∧
    (∃ t, exec (.ldVxK 1) State.reset = .next t ∧ t.FAULT = none) ∧ ∃ t, exec .cls State.reset = .next t ∧ t.FAULT = none :=
  ⟨rfl, ⟨_, rfl, rfl⟩, ⟨_, rfl, rfl⟩, ⟨_, rfl, rfl⟩, ⟨_, rfl, rfl⟩, ⟨_, rfl, rfl⟩, ⟨_, rfl, rfl⟩, ⟨_, rfl, rfl⟩⟩

/-- A dump over the whole next word (program P9), one that reaches it from below, one that stops short of it, a dump over its second
byte only, and LD B at each offset that matters; the last legal `pc`. -/
theorem witness_StoreIsSeenByTheNextFetch :
    (let s := { at200 0xF155 with I := 0x202 }
     s.FAULT = none ∧ s.pc.toNat ≤ 0xFFC ∧ decode s.fetchWord = some (.ldMemVx 1) ∧ s.I.toNat + (1 : Reg).val ≤ 0xFFF ∧
       s.I.toNat + (0 : Reg).val = s.pc.toNat + 2 ∧ s.I.toNat + (1 : Reg).val = s.pc.toNat + 3) ∧
    (let s := { at200 0xFF55 with I := 0x1F4 }
     decode s.fetchWord = some (.ldMemVx 15) ∧ s.I.toNat + (14 : Reg).val = s.pc.toNat + 2 ∧ s.I.toNat + (15 : Reg).val = s.pc.toNat + 3) ∧
    (let s := { at200 0xF055 with I := 0x203 }
     decode s.fetchWord = some (.ldMemVx 0) ∧ s.pc.toNat + 2 < s.I.toNat ∧ s.I.toNat + (0 : Reg).val = s.pc.toNat + 3) ∧
    (let s := { at200 0xF055 with I := 0x201 }; s.I.toNat + (0 : Reg).val < s.pc.toNat + 2 ∧ s.I.toNat + (0 : Reg).val < s.pc.toNat + 3) ∧
    (let s := { placeWord { State.reset with pc := 0xFFC } 0xF133 with I := 0xFFD }
     s.FAULT = none ∧ s.pc.toNat ≤ 0xFFC ∧ decode s.fetchWord = some (.ldB 1) ∧ s.I.toNat + 2 ≤ 0xFFF ∧ s.I.toNat + 1 = s.pc.toNat + 2) ∧
    (let s (i : Word) := { at200 0xF133 with I := i }
     decode (s 0x202).fetchWord = some (.ldB 1) ∧ (s 0x202).I.toNat = 0x200 + 2 ∧ (s 0x201).I.toNat + 1 = 0x200 + 2 ∧
       (s 0x200).I.toNat + 2 = 0x200 + 2 ∧ (s 0x203).I.toNat = 0x200 + 3 ∧ 0x200 + 3 < (s 0x204).I.toNat ∧
       (s 0x1FF).I.toNat + 2 < 0x200 + 2 ∧ (s 0x200).pc = 0x200) := by decide

theorem witness_InputsReachOnlyKeyAndRandomInstructions : ∃ t, exec (.ldVxMem 3) (feed 0xFFFF 0xA7 State.reset) = .next t := ⟨_, rfl⟩

/-- Example S8 of 95_test_vectors.md: two blocked cycles, then the key is down. -/
theorem witness_BlockedWaitRepeatsUntilTheKeyIsDown :
    let s := { regs [(5, 3)] (at200 0xF50A) with inputs := [⟨0, 0⟩, ⟨0xFFF7, 0⟩, ⟨0x0008, 0⟩] }
    s.FAULT = none ∧ s.pc.toNat ≤ 0xFFE ∧ decode s.fetchWord = some (.ldVxK 5) ∧ (s.reg 5).toNat ≤ 15 ∧ 2 ≤ s.inputs.length ∧
      (∀ j : Fin 2, ∃ inp, s.inputs[j.val]? = some inp ∧ inp.key.getLsbD (s.reg 5).toNat = false) ∧
      ∃ inp, s.inputs[2]? = some inp ∧ inp.key.getLsbD (s.reg 5).toNat = true := by
  refine ⟨by decide, by decide, by decide, by decide, by decide, fun j => ?_, ⟨_, rfl, by decide⟩⟩
  match j with
  | 0 => exact ⟨_, rfl, by decide⟩
  | 1 => exact ⟨_, rfl, by decide⟩

/-- The last readable rows, and `n = 0` with `I` out of range. -/
theorem witness_DrawingTwiceRestoresTheBuffer :
    (1 : Reg) ≠ VF ∧ (14 : Reg) ≠ VF ∧ ({ State.reset with I := 0xFF1 } : State).I.toNat + (15 : Nibble).toNat ≤ 0x1000 ∧
      ((0 : Nibble) = 0 ∨ ({ State.reset with I := 0x2000 } : State).I.toNat + (0 : Nibble).toNat ≤ 0x1000) := by decide

theorem witness_ReturnComesBackAfterTheCall :
    State.reset.stackDepth ≠ some State.reset.sp ∧ ({ State.reset with stackDepth := none } : State).stackDepth ≠ some 0 := by decide

theorem witness_BulkLoadRestoresWhatBulkDumpStored : ({ State.reset with I := 0xFF0 } : State).I.toNat + (15 : Reg).val ≤ 0xFFF := by decide

/-- The last offset, first changed and changed back. -/
theorem witness_CanonicalMemoriesWithTheSameBytesAreEqual :
    let m : Memory := Memory.set (Memory.set [] 0xFFF 7) 0xFFF 0
    m.wf = true ∧ Memory.wf [] = true ∧ ∀ a, m.get a = Memory.get [] a :=
  ⟨by decide, by decide, fun _ => rfl⟩

theorem witness_JumpCommitsItsAddress :
    let s := at200 0x1200
    s.FAULT = none ∧ s.pc.toNat ≤ 0xFFE ∧ s.pc.toNat = (0x200 : Addr).toNat ∧ decode s.fetchWord = some (.jp 0x200) := by decide

/-- The least sum whose fetch raises, and one with every bit of `V[0]` set. -/
theorem witness_IndexedJumpAddsRegisterZero :
    0xFFE < (State.reset.reg 0).toNat + (0xFFF : Addr).toNat ∧ 0xFFE < ((regs [(0, 0xFF)] State.reset).reg 0).toNat + (0xFFF : Addr).toNat := by
  decide

theorem witness_CallPushesTheReturnAddress :
    State.reset.stackDepth ≠ some State.reset.sp ∧
      (let s : State := { State.reset with stackDepth := some 2, stack := [2, 1] }; s.stackDepth = some s.sp) := by decide

theorem witness_ReturnCommitsThePoppedValue :
    State.reset.sp = 0 ∧ ({ State.reset with stack := [0x0456, 0x0300] } : State).sp ≠ 0 := by decide

/-- For ImmediateSkips and RegisterSkips: equal and unequal operands, and a word of each family with a low nibble. -/
theorem witness_Skips :
    (State.reset.reg 3).toNat = (0 : Byte).toNat ∧ (State.reset.reg 3).toNat ≠ (0xFF : Byte).toNat ∧
      (State.reset.reg 1).toNat = (State.reset.reg 1).toNat ∧
      (let s := regs [(1, 7), (2, 8)] State.reset; (s.reg 1).toNat ≠ (s.reg 2).toNat) ∧
      fieldOp 0x512F = 0x5 ∧ fieldOp 0x912F = 0x9 := by decide

/-- For AddRegistersSetsTheCarry and SubtractsShareTheGreaterTest: sums and differences on both sides of each flag's bound. -/
theorem witness_FlagClauses :
    (let s := regs [(1, 0xFF), (2, 1)] State.reset
     (s.reg 1).toNat + (s.reg 2).toNat > 255 ∧ (s.reg 1).toNat > (s.reg 2).toNat ∧ (s.reg 2).toNat ≤ (s.reg 1).toNat) ∧
    (let s := regs [(1, 0xFE), (2, 1)] State.reset; (s.reg 1).toNat + (s.reg 2).toNat ≤ 255) ∧
    (let s := regs [(1, 0x10), (2, 0x10)] State.reset; (s.reg 1).toNat ≤ (s.reg 2).toNat) := by decide

/-- For BcdStoreWritesThreeDigits, BulkDumpStoresRegistersAndMovesIndex and BulkLoadReadsRegistersAndMovesIndex: the last legal place. -/
theorem witness_BcdAndBulkAtTheEndOfMemory :
    (let s := { State.reset with I := 0xFFD }; s.I.toNat + 2 ≤ 0xFFF) ∧
      (let s := { State.reset with I := 0xFF0 }; s.I.toNat + (15 : Reg).val ≤ 0xFFF) := by decide

/-- A buffer that is already clear, and one that is not. -/
theorem witness_ClearScreenClearsEveryPixel :
    (∀ px py, State.reset.disp.pixel px py = false) ∧ (onePixel 3 0).pixel 3 0 = true :=
  ⟨Display.pixel_blank, by decide⟩

/-- The two flag clauses of a draw: row G8 collides, row G9 does not. -/
theorem witness_DrawInvertsTheSpritePixelsAndReportsCollision :
    (let s := { poke 0x300 [0x10] State.reset with disp := onePixel 3 0, I := 0x300 }
     s.I.toNat + (1 : Nibble).toNat ≤ 0x1000 ∧ spriteBit s 0 0 1 3 0 = true ∧ s.disp.pixel 3 0 = true) ∧
    (let s := { State.reset with I := 0x2000 }; (0 : Nibble) = 0 ∧ ∀ px py, s.disp.pixel px py = false) :=
  ⟨by decide, rfl, Display.pixel_blank⟩

/-- For KeySkipsTestTheNamedKey and WaitForKeyBlocksOnTheNamedKey: the greatest key index with the key down and up, and the least that
raises. -/
theorem witness_KeyClauses :
    (let s := feed 0x8000 0 (regs [(5, 15)] State.reset)
     (s.reg 5).toNat ≤ 15 ∧ s.sample.key.getLsbD (s.reg 5).toNat = true) ∧
    (let s := feed 0x7FFF 0 (regs [(5, 15)] State.reset)
     (s.reg 5).toNat ≤ 15 ∧ s.sample.key.getLsbD (s.reg 5).toNat = false) ∧
    (let s := regs [(5, 16)] State.reset; 16 ≤ (s.reg 5).toNat) := by decide

theorem witness_TimerLoadsAndStores :
    (let s := at200 0xF307; s.FAULT = none ∧ s.pc.toNat ≤ 0xFFE ∧ decode s.fetchWord = some (.ldVxDT 3)) ∧
    (let s := at200 0xF315; s.FAULT = none ∧ s.pc.toNat ≤ 0xFFE ∧ decode s.fetchWord = some (.ldDTVx 3)) ∧
    (let s := at200 0xF318; s.FAULT = none ∧ s.pc.toNat ≤ 0xFFE ∧ decode s.fetchWord = some (.ldSTVx 3)) := by decide

end Sys2Proof.Tests
end

section
/-! SUPPORT. The execute phase of each of the nine instructions that can fault (60_exceptions.md R131 to R133), as an update of the state,
said once: an equation for each outcome, and the inversion of `exec i s = .next t`. For every other instruction `exec i s` is `.next` of its
update by definition, and `Host.Outcome.next.inj` reads that update off. -/

namespace Sys2Proof.Machine

/-- An execute phase has one outcome. -/
theorem exec_unique {i : Instr} {s t u : State} (h : exec i s = .next t) (hu : exec i s = .next u) : t = u :=
  Host.Outcome.next.inj (h.symm.trans hu)

/-! ## The call stack (41_flow.md R81, R83) -/

theorem exec_ret_empty {s : State} (h : s.stack = []) : exec .ret s = .next (raise .stackUnderflow s) := by
  simp [exec, execRet, popReturn, h]

theorem exec_ret_cons {s : State} {v : Word} {st : List Word} (h : s.stack = v :: st) :
    exec .ret s = .next ((s.setStack st).setPc v) := by
  simp [exec, execRet, popReturn, h]

theorem exec_ret_inv {s t : State} (h : exec .ret s = .next t) :
    (s.stack = [] ∧ t = raise .stackUnderflow s) ∨ (∃ v st, s.stack = v :: st ∧ t = (s.setStack st).setPc v) := by
  cases hs : s.stack with
  | nil => exact .inl ⟨rfl, exec_unique h (exec_ret_empty hs)⟩
  | cons v st => exact .inr ⟨v, st, rfl, exec_unique h (exec_ret_cons hs)⟩

theorem exec_call_full {s : State} (nnn : Addr) (h : s.stackDepth = some s.sp) :
    exec (.call nnn) s = .next (raise .stackOverflow s) := by
  simp [exec, execCall, pushReturn, h]

theorem exec_call_room {s : State} (nnn : Addr) (h : s.stackDepth ≠ some s.sp) :
    exec (.call nnn) s = .next ((s.setStack ((s.pc + 2) :: s.stack)).setPc (zextAddr nnn)) := by
  simp [exec, execCall, pushReturn, h]

theorem exec_call_inv {s t : State} {nnn : Addr} (h : exec (.call nnn) s = .next t) :
    (s.stackDepth = some s.sp ∧ t = raise .stackOverflow s) ∨
    (s.stackDepth ≠ some s.sp ∧ t = (s.setStack ((s.pc + 2) :: s.stack)).setPc (zextAddr nnn)) := by
  by_cases hd : s.stackDepth = some s.sp
  · exact .inl ⟨hd, exec_unique h (exec_call_full nnn hd)⟩
  · exact .inr ⟨hd, exec_unique h (exec_call_room nnn hd)⟩

/-! ## The three key instructions (45_keypad_timers.md R119 to R122) -/

/-- A key instruction raises KeyFault on an index above 15, changing nothing else, or commits a `pc` that the key decides (R119). -/
theorem finish_keyIndex_inv {s t : State} {x : Reg} {next : Byte → Word}
    (h : finish ((s.keyIndex x).map (fun k => s.setPc (next k))) s = .next t) :
    (16 ≤ (s.reg x).toNat ∧ t = raise (.key (s.reg x)) s) ∨ ((s.reg x).toNat ≤ 15 ∧ t = s.setPc (next (s.reg x))) := by
  obtain ⟨hk, he⟩ | ⟨hk, he⟩ := keyIndex_cases s x
  · rw [he, map_ok, finish_ok] at h
    exact .inr ⟨hk, (Host.Outcome.next.inj h).symm⟩
  · rw [he, map_error, finish_error] at h
    exact .inl ⟨hk, (Host.Outcome.next.inj h).symm⟩

theorem exec_skp_inv {s t : State} {x : Reg} (h : exec (.skp x) s = .next t) :
    (16 ≤ (s.reg x).toNat ∧ t = raise (.key (s.reg x)) s) ∨
    ((s.reg x).toNat ≤ 15 ∧ t = s.skipIf (s.keyPressed (s.reg x))) := finish_keyIndex_inv h

theorem exec_sknp_inv {s t : State} {x : Reg} (h : exec (.sknp x) s = .next t) :
    (16 ≤ (s.reg x).toNat ∧ t = raise (.key (s.reg x)) s) ∨
    ((s.reg x).toNat ≤ 15 ∧ t = s.skipIf (!s.keyPressed (s.reg x))) := finish_keyIndex_inv h

theorem exec_ldVxK_inv {s t : State} {x : Reg} (h : exec (.ldVxK x) s = .next t) :
    (16 ≤ (s.reg x).toNat ∧ t = raise (.key (s.reg x)) s) ∨
    ((s.reg x).toNat ≤ 15 ∧ t = s.setPc (if s.keyPressed (s.reg x) then s.pc + 2 else s.pc)) := finish_keyIndex_inv h

/-! ## The stores and the bulk load (43_index_memory.md R108 to R110) -/

theorem exec_ldB_legal {s : State} (x : Reg) (h : s.I.toNat + 3 ≤ 0x1000) :
    exec (.ldB x) s = .next ((s.setMem (s.mem.setBytes s.I.toNat (bcdDigits (s.reg x)))).setPc (s.pc + 2)) := by
  simp [exec, execLdB, State.effAddr, storeBytes_legal s s.I.toNat (bcdDigits (s.reg x)) h]

theorem exec_ldB_illegal {s : State} (x : Reg) (h : 0x1000 < s.I.toNat + 3) :
    exec (.ldB x) s = .next (raise (.memory (max s.I.toNat 0x1000) .write) (unspecifiedMem s s.I.toNat 3)) := by
  simp [exec, execLdB, State.effAddr, storeBytes_illegal s s.I.toNat (bcdDigits (s.reg x)) (List.cons_ne_nil _ _) h]

theorem exec_ldB_inv {s t : State} {x : Reg} (h : exec (.ldB x) s = .next t) :
    (0x1000 < s.I.toNat + 3 ∧ t = raise (.memory (max s.I.toNat 0x1000) .write) (unspecifiedMem s s.I.toNat 3)) ∨
    (s.I.toNat + 3 ≤ 0x1000 ∧ t = (s.setMem (s.mem.setBytes s.I.toNat (bcdDigits (s.reg x)))).setPc (s.pc + 2)) :=
  (Nat.lt_or_ge _ _).imp (fun hI => ⟨hI, exec_unique h (exec_ldB_illegal x hI)⟩)
    (fun hI => ⟨hI, exec_unique h (exec_ldB_legal x hI)⟩)

theorem regsUpTo_ne_nil (x : Reg) : regsUpTo x ≠ [] := List.ne_nil_of_length_eq_add_one (regsUpTo_length x)

theorem exec_ldMemVx_legal {s : State} {x : Reg} (h : s.I.toNat + (x.val + 1) ≤ 0x1000) :
    exec (.ldMemVx x) s = .next (((s.setMem (s.mem.setBytes s.I.toNat ((regsUpTo x).map s.reg))).setI
      (s.I + BitVec.ofNat 16 (x.val + 1))).setPc (s.pc + 2)) := by
  simp [exec, execLdMemVx, dumpRegs_legal s (regsUpTo x) (by rwa [regsUpTo_length]), regsUpTo_length]

theorem exec_ldMemVx_illegal {s : State} {x : Reg} (h : 0x1000 < s.I.toNat + (x.val + 1)) :
    exec (.ldMemVx x) s = .next (raise (.memory (max s.I.toNat 0x1000) .write)
      (unspecifiedI (unspecifiedMem s s.I.toNat (x.val + 1)))) := by
  simp [exec, execLdMemVx, State.effAddr, dumpRegs_illegal s (regsUpTo x) (regsUpTo_ne_nil x) (by rwa [regsUpTo_length])]

theorem exec_ldMemVx_inv {s t : State} {x : Reg} (h : exec (.ldMemVx x) s = .next t) :
    (0x1000 < s.I.toNat + (x.val + 1) ∧ t = raise (.memory (max s.I.toNat 0x1000) .write)
      (unspecifiedI (unspecifiedMem s s.I.toNat (x.val + 1)))) ∨
    (s.I.toNat + (x.val + 1) ≤ 0x1000 ∧ t = ((s.setMem (s.mem.setBytes s.I.toNat ((regsUpTo x).map s.reg))).setI
      (s.I + BitVec.ofNat 16 (x.val + 1))).setPc (s.pc + 2)) :=
  (Nat.lt_or_ge _ _).imp (fun hI => ⟨hI, exec_unique h (exec_ldMemVx_illegal hI)⟩)
    (fun hI => ⟨hI, exec_unique h (exec_ldMemVx_legal hI)⟩)

/-- The general registers a completed bulk load leaves: 0 to `x` from `Mem[I]` on, the others as they were (R110). -/
def loadedRegs (s : State) (x : Reg) : Vector Byte 16 :=
  Vector.ofFn (fun r : Reg => if r ≤ x then s.mem.get (s.I.toNat + r.val) else s.reg r)

theorem loadedRegs_getElem (s : State) (x r : Reg) :
    (loadedRegs s x)[r] = if r ≤ x then s.mem.get (s.I.toNat + r.val) else s.reg r := by
  simp [loadedRegs]

theorem exec_ldVxMem_legal {s : State} {x : Reg} (h : s.I.toNat + (x.val + 1) ≤ 0x1000) :
    exec (.ldVxMem x) s =
      .next { s with V := loadedRegs s x, I := s.I + BitVec.ofNat 16 (x.val + 1), pc := s.pc + 2 } := by
  obtain ⟨t, ht, hs, hout, hin⟩ := loadRegs_legal s (regsUpTo x) (by rwa [regsUpTo_length]) (regsUpTo_nodup x)
  have hV : t.V = loadedRegs s x := by
    refine Vector.ext fun k hk => ?_
    change t.reg ⟨k, hk⟩ = (loadedRegs s x)[(⟨k, hk⟩ : Reg)]
    rw [loadedRegs_getElem]
    split
    · next hle =>
      obtain ⟨hlt, he⟩ := List.getElem?_eq_some_iff.mp (regsUpTo_getElem x ⟨k, hk⟩ hle)
      rw [← hin k hlt, he]
    · next hgt => exact hout _ (mt (mem_regsUpTo x _).mp hgt)
  rw [hV, regsUpTo_length] at hs
  simp [exec, execLdVxMem, ht, hs, State.setPc]

theorem exec_ldVxMem_illegal {s : State} {x : Reg} (h : 0x1000 < s.I.toNat + (x.val + 1)) :
    exec (.ldVxMem x) s = .next (raise (.memory (max s.I.toNat 0x1000) .read) (unspecifiedI (unspecifiedRegs s x))) := by
  simp [exec, execLdVxMem, loadRegs_illegal s (regsUpTo x) (regsUpTo_ne_nil x) (by rwa [regsUpTo_length])]

theorem exec_ldVxMem_inv {s t : State} {x : Reg} (h : exec (.ldVxMem x) s = .next t) :
    (0x1000 < s.I.toNat + (x.val + 1) ∧
      t = raise (.memory (max s.I.toNat 0x1000) .read) (unspecifiedI (unspecifiedRegs s x))) ∨
    (s.I.toNat + (x.val + 1) ≤ 0x1000 ∧
      t = { s with V := loadedRegs s x, I := s.I + BitVec.ofNat 16 (x.val + 1), pc := s.pc + 2 }) :=
  (Nat.lt_or_ge _ _).imp (fun hI => ⟨hI, exec_unique h (exec_ldVxMem_illegal hI)⟩)
    (fun hI => ⟨hI, exec_unique h (exec_ldVxMem_legal hI)⟩)

/-! ## The draw (44_display.md R116) -/

theorem exec_drw_of_rows {s : State} {x y : Reg} {n : Nibble} {c : Canvas}
    (h : drawRows s ⟨s.disp, false⟩ (startColumn (s.reg x)) (s.reg y).toNat (List.range n.toNat) = .ok c) :
    exec (.drw x y n) s = .next (drawn s c) := by
  simp [exec, execDrw, h]

theorem exec_drw_of_rows_error {s : State} {x y : Reg} {n : Nibble} {f : Fault}
    (h : drawRows s ⟨s.disp, false⟩ (startColumn (s.reg x)) (s.reg y).toNat (List.range n.toNat) = .error f) :
    exec (.drw x y n) s = .next (raise f (unspecifiedDraw s (startColumn (s.reg x)) (s.reg y).toNat n.toNat)) := by
  simp [exec, execDrw, h]

/-- The draw's rows, all in range: exactly the pixels of the sprite's set bits are inverted. -/
theorem exec_drw_legal {s : State} (x y : Reg) {n : Nibble} (h : n.toNat = 0 ∨ s.I.toNat + n.toNat ≤ 0x1000) :
    ∃ c, exec (.drw x y n) s = .next (drawn s c) ∧
      ∀ px py, c.disp.pixel px py = (s.disp.pixel px py ^^ spriteBit s (startColumn (s.reg x)) (s.reg y).toNat n.toNat px py) := by
  obtain ⟨c, hc, hpix, -⟩ := drawRows_legal s ⟨s.disp, false⟩ (startColumn (s.reg x)) (s.reg y).toNat (List.range n.toNat)
    List.nodup_range (fun row hrow => by rw [List.mem_range] at hrow; omega)
  refine ⟨c, exec_drw_of_rows hc, fun px py => ?_⟩
  have hrow (hle : (s.reg y).toNat ≤ py) :
      (List.range n.toNat).contains (py - (s.reg y).toNat) = decide (py < (s.reg y).toNat + n.toNat) := by
    rw [Bool.eq_iff_iff, List.contains_iff_mem, List.mem_range, decide_eq_true_eq]
    omega
  rw [hpix, spriteBit, inFootprint]
  congr 1
  by_cases hle : (s.reg y).toNat ≤ py
  · rw [hrow hle]
    ac_rfl
  · simp [hle]

theorem exec_drw_illegal {s : State} (x y : Reg) {n : Nibble} (hn : n.toNat ≠ 0) (h : 0x1000 < s.I.toNat + n.toNat) :
    exec (.drw x y n) s = .next (raise (.memory (max s.I.toNat 0x1000) .read)
      (unspecifiedDraw s (startColumn (s.reg x)) (s.reg y).toNat n.toNat)) := by
  have hr := drawRows_illegal s ⟨s.disp, false⟩ (startColumn (s.reg x)) (s.reg y).toNat n.toNat 0 hn (by omega)
  exact exec_drw_of_rows_error (by rw [List.range_eq_range', hr, Nat.add_zero])

theorem exec_drw_inv {s t : State} {x y : Reg} {n : Nibble} (h : exec (.drw x y n) s = .next t) :
    (0x1000 < s.I.toNat + n.toNat ∧ t = raise (.memory (max s.I.toNat 0x1000) .read)
      (unspecifiedDraw s (startColumn (s.reg x)) (s.reg y).toNat n.toNat)) ∨
    (∃ c, t = drawn s c ∧
      ∀ px py, c.disp.pixel px py = (s.disp.pixel px py ^^ spriteBit s (startColumn (s.reg x)) (s.reg y).toNat n.toNat px py)) := by
  by_cases hI : n.toNat ≠ 0 ∧ 0x1000 < s.I.toNat + n.toNat
  · exact .inl ⟨hI.2, exec_unique h (exec_drw_illegal x y hI.1 hI.2)⟩
  · obtain ⟨c, hc, hpix⟩ := exec_drw_legal x y (s := s) (n := n) (by omega)
    exact .inr ⟨c, exec_unique h hc, hpix⟩

end Sys2Proof.Machine
end

section
/-! SUPPORT. What the execute phase leaves unchanged (10_state.md R25), said once over all instructions, and the frames that rest on it. -/

namespace Sys2Proof.Machine

/-- `s` with the pieces of state that the access matrix (10_state.md R25) lets the instruction write taken from `t`. -/
def written (i : Instr) (s t : State) : State :=
  match i with
  | .cls => { s with disp := t.disp, pc := t.pc }
  | .call _ | .ret => { s with stack := t.stack, pc := t.pc, FAULT := t.FAULT }
  | .sys _ | .jp _ | .jpV0 _ | .seImm _ _ | .sneImm _ _ | .seReg _ _ | .sneReg _ _ => { s with pc := t.pc }
  | .skp _ | .sknp _ | .ldVxK _ => { s with pc := t.pc, FAULT := t.FAULT }
  | .ldImm _ _ | .addImm _ _ | .ldReg _ _ | .or _ _ | .and _ _ | .xor _ _ | .addReg _ _ | .sub _ _ | .shr _ _ | .subn _ _ | .shl _ _
  | .rnd _ _ | .ldVxDT _ => { s with V := t.V, pc := t.pc }
  | .drw _ _ _ => { s with V := t.V, disp := t.disp, pc := t.pc, FAULT := t.FAULT }
  | .ldI _ | .addI _ | .ldF _ => { s with I := t.I, pc := t.pc }
  | .ldDTVx _ => { s with DT := t.DT, pc := t.pc }
  | .ldSTVx _ => { s with ST := t.ST, pc := t.pc }
  | .ldB _ => { s with mem := t.mem, pc := t.pc, FAULT := t.FAULT }
  | .ldMemVx _ => { s with mem := t.mem, I := t.I, pc := t.pc, FAULT := t.FAULT }
  | .ldVxMem _ => { s with V := t.V, I := t.I, pc := t.pc, FAULT := t.FAULT }

/-- An instruction changes nothing but what the access matrix says it writes, in a cycle that faults too. -/
theorem exec_written {i : Instr} {s t : State} (h : exec i s = .next t) : t = written i s t := by
  cases i with
  | ret => obtain ⟨-, rfl⟩ | ⟨v, st, -, rfl⟩ := exec_ret_inv h <;> rfl
  | call nnn => obtain ⟨-, rfl⟩ | ⟨-, rfl⟩ := exec_call_inv h <;> rfl
  | skp x => obtain ⟨-, rfl⟩ | ⟨-, rfl⟩ := exec_skp_inv h <;> rfl
  | sknp x => obtain ⟨-, rfl⟩ | ⟨-, rfl⟩ := exec_sknp_inv h <;> rfl
  | ldVxK x => obtain ⟨-, rfl⟩ | ⟨-, rfl⟩ := exec_ldVxK_inv h <;> rfl
  | drw x y n =>
    obtain ⟨-, rfl⟩ | ⟨c, rfl, -⟩ := exec_drw_inv h
    · rw [unspecifiedDraw_frame]
      rfl
    · rfl
  | ldB x =>
    obtain ⟨-, rfl⟩ | ⟨-, rfl⟩ := exec_ldB_inv h
    · rw [unspecifiedMem_frame]
      rfl
    · rfl
  | ldMemVx x =>
    obtain ⟨-, rfl⟩ | ⟨-, rfl⟩ := exec_ldMemVx_inv h
    · rw [unspecifiedMem_frame]
      rfl
    · rfl
  | ldVxMem x => obtain ⟨-, rfl⟩ | ⟨-, rfl⟩ := exec_ldVxMem_inv h <;> rfl
  | _ =>
    obtain rfl := Host.Outcome.next.inj h
    rfl

/-- A MemoryFault on the first offset above 0xFFF from a 16-bit base on has a legal record (60_exceptions.md R130). -/
theorem memoryRecord_ok (base : Word) (k : AccessKind) : faultRecordOk (.memory (max base.toNat 0x1000) k) = true := by
  have hb := base.isLt
  simp only [faultRecordOk, Bool.and_eq_true, decide_eq_true_eq]
  omega

theorem keyRecord_ok {k : Byte} (h : 16 ≤ k.toNat) : faultRecordOk (.key k) = true := decide_eq_true h

/-- An execute phase raises a fault with a legal record, which leaves `pc`, the stack, the timers and the model's own fields as they were
(60_exceptions.md R130, R136 (a), (c)), or it leaves FAULT alone. -/
theorem exec_raises_or_completes {i : Instr} {s t : State} (h : exec i s = .next t) :
    (∃ f, faultRecordOk f = true ∧ t = raise f { s with V := t.V, I := t.I, disp := t.disp, mem := t.mem }) ∨ t.FAULT = s.FAULT := by
  cases i with
  | ret =>
    obtain ⟨-, rfl⟩ | ⟨v, st, -, rfl⟩ := exec_ret_inv h
    · exact .inl ⟨_, rfl, rfl⟩
    · exact .inr rfl
  | call nnn =>
    obtain ⟨-, rfl⟩ | ⟨-, rfl⟩ := exec_call_inv h
    · exact .inl ⟨_, rfl, rfl⟩
    · exact .inr rfl
  | skp x =>
    obtain ⟨hk, rfl⟩ | ⟨-, rfl⟩ := exec_skp_inv h
    · exact .inl ⟨_, keyRecord_ok hk, rfl⟩
    · exact .inr rfl
  | sknp x =>
    obtain ⟨hk, rfl⟩ | ⟨-, rfl⟩ := exec_sknp_inv h
    · exact .inl ⟨_, keyRecord_ok hk, rfl⟩
    · exact .inr rfl
  | ldVxK x =>
    obtain ⟨hk, rfl⟩ | ⟨-, rfl⟩ := exec_ldVxK_inv h
    · exact .inl ⟨_, keyRecord_ok hk, rfl⟩
    · exact .inr rfl
  | drw x y n =>
    obtain ⟨-, rfl⟩ | ⟨c, rfl, -⟩ := exec_drw_inv h
    · refine .inl ⟨_, memoryRecord_ok s.I .read, ?_⟩
      rw [unspecifiedDraw_frame]
      rfl
    · exact .inr rfl
  | ldB x =>
    obtain ⟨-, rfl⟩ | ⟨-, rfl⟩ := exec_ldB_inv h
    · refine .inl ⟨_, memoryRecord_ok s.I .write, ?_⟩
      rw [unspecifiedMem_frame]
      rfl
    · exact .inr rfl
  | ldMemVx x =>
    obtain ⟨-, rfl⟩ | ⟨-, rfl⟩ := exec_ldMemVx_inv h
    · refine .inl ⟨_, memoryRecord_ok s.I .write, ?_⟩
      rw [unspecifiedMem_frame]
      rfl
    · exact .inr rfl
  | ldVxMem x =>
    obtain ⟨-, rfl⟩ | ⟨-, rfl⟩ := exec_ldVxMem_inv h
    · exact .inl ⟨_, memoryRecord_ok s.I .read, rfl⟩
    · exact .inr rfl
  | _ =>
    obtain rfl := Host.Outcome.next.inj h
    exact .inr rfl

end Sys2Proof.Machine
end

section
/-! The frames of 10_state.md R25 and the program counter (R15). -/

namespace Sys2Proof.Machine

/-- The result and the flag are all that a flag writer of the ALU changes among the general registers (10_state.md R12). -/
theorem writeResultAndFlag_reg_of_ne (s : State) (x r : Reg) (v : Byte) (f : Bool) (hx : r ≠ x) (hVF : r ≠ VF) :
    (writeResultAndFlag x v f s).reg r = s.reg r := by
  rw [writeResultAndFlag_eq, setPc_reg, setReg_reg_of_ne _ _ _ _ hVF, setReg_reg_of_ne _ _ _ _ hx]

theorem writeResult_reg_of_ne (s : State) (x r : Reg) (v : Byte) (hx : r ≠ x) : (writeResult x v s).reg r = s.reg r := by
  rw [writeResult_eq, setPc_reg, setReg_reg_of_ne _ _ _ _ hx]

theorem drawn_reg_of_ne (s : State) (c : Canvas) (r : Reg) (hVF : r ≠ VF) : (drawn s c).reg r = s.reg r := by
  rw [drawn, advance_eq, setPc_reg, setReg_reg_of_ne _ _ _ _ hVF, setDisp_reg]

/-- Settles O24: only the destination, the loaded range and, in a flag writer, VF are written; an instruction that writes no general
register leaves `V` whole by `exec_written`. -/
theorem onlyTheNamedGeneralRegistersChange : Obligations.OnlyTheNamedGeneralRegistersChange := by
  intro i s t r h hr
  cases i with
  | ldImm x _ | addImm x _ | ldReg x _ | or x _ | and x _ | xor x _ | rnd x _ | ldVxDT x =>
    obtain rfl := Host.Outcome.next.inj h
    exact writeResult_reg_of_ne s x r _ (by simpa [writesReg] using hr)
  | addReg x _ | sub x _ | shr x _ | subn x _ | shl x _ =>
    obtain rfl := Host.Outcome.next.inj h
    have hne : r ≠ x ∧ r ≠ VF := by simpa [writesReg] using hr
    exact writeResultAndFlag_reg_of_ne s x r _ _ hne.1 hne.2
  | drw x y n =>
    have hne : r ≠ VF := by simpa [writesReg] using hr
    obtain ⟨-, rfl⟩ | ⟨c, rfl, -⟩ := exec_drw_inv h
    · rw [raise_reg, unspecifiedDraw_reg_of_ne _ _ _ _ _ hne]
    · exact drawn_reg_of_ne s c r hne
  | ldVxMem x =>
    have hgt : ¬ r ≤ x := by simpa [writesReg] using hr
    obtain ⟨-, rfl⟩ | ⟨-, rfl⟩ := exec_ldVxMem_inv h
    · exact (unspecifiedRegs_reg s x r).trans (if_neg hgt)
    · exact (loadedRegs_getElem s x r).trans (if_neg hgt)
  | _ =>
    rw [exec_written h]
    rfl

/-! ## What `written` keeps -/

section Written

variable {i : Instr} {s t : State}

theorem written_I (h : writesI i = false) : (written i s t).I = s.I := by
  cases i with
  | ldI _ | addI _ | ldF _ | ldMemVx _ | ldVxMem _ => cases h
  | _ => rfl

theorem written_stack (hcall : ∀ nnn, i ≠ .call nnn) (hret : i ≠ .ret) : (written i s t).stack = s.stack := by
  cases i with
  | call nnn => exact absurd rfl (hcall nnn)
  | ret => exact absurd rfl hret
  | _ => rfl

theorem written_DT (h : ∀ x, i ≠ .ldDTVx x) : (written i s t).DT = s.DT := by
  cases i with
  | ldDTVx x => exact absurd rfl (h x)
  | _ => rfl

theorem written_ST (h : ∀ x, i ≠ .ldSTVx x) : (written i s t).ST = s.ST := by
  cases i with
  | ldSTVx x => exact absurd rfl (h x)
  | _ => rfl

theorem written_disp (hcls : i ≠ .cls) (hdrw : ∀ x y n, i ≠ .drw x y n) : (written i s t).disp = s.disp := by
  cases i with
  | cls => exact absurd rfl hcls
  | drw x y n => exact absurd rfl (hdrw x y n)
  | _ => rfl

@[simp] theorem written_stackDepth : (written i s t).stackDepth = s.stackDepth := by cases i <;> rfl
@[simp] theorem written_inputs : (written i s t).inputs = s.inputs := by cases i <;> rfl
@[simp] theorem written_cycle : (written i s t).cycle = s.cycle := by cases i <;> rfl

end Written

/-- Settles O25: read off from what each instruction writes. -/
theorem onlyTheNamedSpecialRegistersChange : Obligations.OnlyTheNamedSpecialRegistersChange := by
  intro i s t h
  rw [exec_written h]
  exact ⟨written_I, written_stack, written_DT, written_ST, written_stackDepth, written_inputs, written_cycle⟩

/-- Settles O27: an instruction other than CLS and DRW keeps the buffer by `exec_written`; outside the footprint a completed draw has no
sprite bit to invert and a faulting one leaves no free pixel. -/
theorem onlyClsAndDrwChangeTheDisplay : Obligations.OnlyClsAndDrwChangeTheDisplay := by
  intro i s t h
  refine ⟨fun hcls hdrw => (congrArg State.disp (exec_written h)).trans (written_disp hcls hdrw), ?_⟩
  rintro x y n rfl px py hout
  obtain ⟨-, rfl⟩ | ⟨c, rfl, hpix⟩ := exec_drw_inv h
  · rw [raise_disp, unspecifiedDraw_pixel _ _ _ _ _ _ hout]
  · have hbit : spriteBit s (startColumn (s.reg x)) (s.reg y).toNat n.toNat px py = false := by simp [spriteBit, hout]
    exact (hpix px py).trans (by rw [hbit, Bool.xor_false])

/-! ## The flag (10_state.md R12) -/

theorem flagByte_zero_or_one (f : Bool) : flagByte f = 0 ∨ flagByte f = 1 := by
  cases f <;> decide

/-- The flag is written last, so VF holds it even where VF is the destination (the spec's decision D17). -/
theorem writeResultAndFlag_VF (s : State) (x : Reg) (v : Byte) (f : Bool) : (writeResultAndFlag x v f s).reg VF = flagByte f := by
  rw [writeResultAndFlag_eq, setPc_reg, setReg_reg_self]

@[simp] theorem drawn_VF (s : State) (c : Canvas) : (drawn s c).reg VF = flagByte c.hit := by
  rw [drawn, advance_eq, setPc_reg, setReg_reg_self]

/-- Settles O28: what each flag writer leaves in VF is a flag byte. -/
theorem flagWritersLeaveZeroOrOneInVF : Obligations.FlagWritersLeaveZeroOrOneInVF := by
  intro i s t _ h ht hw
  cases i with
  | addReg x y | sub x y | shr x y | subn x y | shl x y =>
    obtain rfl := Host.Outcome.next.inj h
    rw [writeResultAndFlag_VF]
    exact flagByte_zero_or_one _
  | drw x y n =>
    obtain ⟨-, rfl⟩ | ⟨c, rfl, -⟩ := exec_drw_inv h
    · cases ht
    · rw [drawn_VF]
      exact flagByte_zero_or_one _
  | _ => exact hw.elim

/-! ## The program counter (10_state.md R15) -/

theorem zextAddr_toNat (nnn : Addr) : (zextAddr nnn).toNat = nnn.toNat := by
  simp only [zextAddr, BitVec.toNat_setWidth]
  omega

theorem zextByte_toNat (b : Byte) : (zextByte b).toNat = b.toNat := by
  simp only [zextByte, BitVec.toNat_setWidth]
  omega

/-- The indexed jump's sum is not truncated (41_flow.md R88). -/
theorem zextByte_add_zextAddr_toNat (b : Byte) (nnn : Addr) : (zextByte b + zextAddr nnn).toNat = b.toNat + nnn.toNat := by
  rw [BitVec.toNat_add, zextByte_toNat, zextAddr_toNat]
  omega

theorem skipIf_pc (s : State) (taken : Bool) : (s.skipIf taken).pc = s.pc + 4 ∨ (s.skipIf taken).pc = s.pc + 2 := by
  cases taken with
  | true => exact .inl rfl
  | false => exact .inr rfl

/-- The wait commits the default advance or stays where it is (45_keypad_timers.md R122). -/
theorem wait_pc (s : State) (down : Bool) :
    (s.setPc (if down then s.pc + 2 else s.pc)).pc = s.pc ∨ (s.setPc (if down then s.pc + 2 else s.pc)).pc = s.pc + 2 := by
  cases down with
  | true => exact .inr rfl
  | false => exact .inl rfl

/-- The entry RET pops is the topmost one (10_state.md R16). -/
theorem stackEntry_top {s : State} {v : Word} {st : List Word} (h : s.stack = v :: st) : s.stackEntry (s.sp - 1) = some v := by
  simp [State.stackEntry, State.sp, h]

/-- Settles O29: each instruction's committed value, read off from its effect; a cycle that raised is shut out. -/
theorem onlyRedirectingInstructionsLeaveTheDefaultAdvance : Obligations.OnlyRedirectingInstructionsLeaveTheDefaultAdvance := by
  intro i s t _ h ht
  cases i with
  | jp nnn =>
    obtain rfl := Host.Outcome.next.inj h
    exact zextAddr_toNat nnn
  | jpV0 nnn =>
    obtain rfl := Host.Outcome.next.inj h
    exact zextByte_add_zextAddr_toNat (s.reg 0) nnn
  | call nnn =>
    obtain ⟨-, rfl⟩ | ⟨-, rfl⟩ := exec_call_inv h
    · cases ht
    · exact zextAddr_toNat nnn
  | ret =>
    obtain ⟨-, rfl⟩ | ⟨v, st, hst, rfl⟩ := exec_ret_inv h
    · cases ht
    · exact stackEntry_top hst
  | seImm _ _ | sneImm _ _ | seReg _ _ | sneReg _ _ =>
    obtain rfl := Host.Outcome.next.inj h
    exact skipIf_pc s _
  | skp x =>
    obtain ⟨-, rfl⟩ | ⟨-, rfl⟩ := exec_skp_inv h
    · cases ht
    · exact skipIf_pc s _
  | sknp x =>
    obtain ⟨-, rfl⟩ | ⟨-, rfl⟩ := exec_sknp_inv h
    · cases ht
    · exact skipIf_pc s _
  | ldVxK x =>
    obtain ⟨-, rfl⟩ | ⟨-, rfl⟩ := exec_ldVxK_inv h
    · cases ht
    · exact wait_pc s _
  | drw x y n =>
    obtain ⟨-, rfl⟩ | ⟨c, rfl, -⟩ := exec_drw_inv h
    · cases ht
    · rfl
  | ldB x =>
    obtain ⟨-, rfl⟩ | ⟨-, rfl⟩ := exec_ldB_inv h
    · cases ht
    · rfl
  | ldMemVx x =>
    obtain ⟨-, rfl⟩ | ⟨-, rfl⟩ := exec_ldMemVx_inv h
    · cases ht
    · rfl
  | ldVxMem x =>
    obtain ⟨-, rfl⟩ | ⟨-, rfl⟩ := exec_ldVxMem_inv h
    · cases ht
    · rfl
  | _ =>
    obtain rfl := Host.Outcome.next.inj h
    rfl

end Sys2Proof.Machine
end

section
/-! The inputs of a cycle reach the state only through the key instructions and RND (10_state.md R20, R25): every operation the other
instructions share commutes with exchanging the host's script. -/

namespace Sys2Proof.Machine

/-- The state with another script of the host's inputs (40_cycle.md R78; log 3). -/
abbrev State.withScript (s : State) (script : List Input) : State := { s with inputs := script }

theorem unspecifiedMem_withScript (s : State) (script : List Input) (a span : Nat) :
    unspecifiedMem (s.withScript script) a span = (unspecifiedMem s a span).withScript script := by
  induction span generalizing s a with
  | zero => rfl
  | succ n ih =>
    simp only [unspecifiedMem]
    split
    · exact ih (s.setMem (s.mem.set a (Config.freeMem s.cycle a))) (a + 1)
    · exact ih s (a + 1)

/-- The rows of a sprite depend on memory and `I` alone. -/
theorem drawRows_withScript (s : State) (script : List Input) (c : Canvas) (sx sy : Nat) (rows : List Nat) :
    drawRows (s.withScript script) c sx sy rows = drawRows s c sx sy rows := by
  induction rows generalizing c with
  | nil => rfl
  | cons row rows ih =>
    have hread : memRead (s.withScript script) (s.effAddr row) = memRead s (s.effAddr row) := rfl
    simp only [drawRows, show (s.withScript script).effAddr row = s.effAddr row from rfl, hread, ih]

theorem exec_drw_withScript {x y : Reg} {n : Nibble} {s t : State} (script : List Input) (h : exec (.drw x y n) s = .next t) :
    exec (.drw x y n) (s.withScript script) = .next (t.withScript script) := by
  have hrows := drawRows_withScript s script ⟨s.disp, false⟩ (startColumn (s.reg x)) (s.reg y).toNat (List.range n.toNat)
  cases hr : drawRows s ⟨s.disp, false⟩ (startColumn (s.reg x)) (s.reg y).toNat (List.range n.toNat) with
  | ok c =>
    obtain rfl := exec_unique h (exec_drw_of_rows hr)
    exact exec_drw_of_rows (hrows.trans hr)
  | error f =>
    obtain rfl := exec_unique h (exec_drw_of_rows_error hr)
    exact exec_drw_of_rows_error (hrows.trans hr)

/-- Settles O31: each outcome of an instruction that reads no input, with its condition, is the same under any script. -/
theorem inputsReachOnlyKeyAndRandomInstructions : Obligations.InputsReachOnlyKeyAndRandomInstructions := by
  intro i s t script hi h
  change exec i (s.withScript script) = .next (t.withScript script)
  cases i with
  | skp _ | sknp _ | ldVxK _ | rnd _ _ => exact hi.elim
  | ret =>
    obtain ⟨hst, rfl⟩ | ⟨v, st, hst, rfl⟩ := exec_ret_inv h
    · exact exec_ret_empty hst
    · exact exec_ret_cons hst
  | call nnn =>
    obtain ⟨hd, rfl⟩ | ⟨hd, rfl⟩ := exec_call_inv h
    · exact exec_call_full nnn hd
    · exact exec_call_room nnn hd
  | drw x y n => exact exec_drw_withScript script h
  | ldB x =>
    obtain ⟨hI, rfl⟩ | ⟨hI, rfl⟩ := exec_ldB_inv h
    · rw [exec_ldB_illegal (s := s.withScript script) x hI, unspecifiedMem_withScript]
      rfl
    · exact exec_ldB_legal x hI
  | ldMemVx x =>
    obtain ⟨hI, rfl⟩ | ⟨hI, rfl⟩ := exec_ldMemVx_inv h
    · rw [exec_ldMemVx_illegal (s := s.withScript script) hI, unspecifiedMem_withScript]
      rfl
    · exact exec_ldMemVx_legal hI
  | ldVxMem x =>
    obtain ⟨hI, rfl⟩ | ⟨hI, rfl⟩ := exec_ldVxMem_inv h
    · exact exec_ldVxMem_illegal hI
    · exact exec_ldVxMem_legal hI
  | _ =>
    obtain rfl := Host.Outcome.next.inj h
    rfl

end Sys2Proof.Machine
end

section
/-! The invariant of the machine (10_state.md R15, R16, R18; 60_exceptions.md R130): it holds at reset and every cycle keeps it. -/

namespace Sys2Proof.Machine

/-! ## The parts of the invariant -/

theorem spOk_iff (s : State) : s.spOk = true ↔ ∀ d, s.stackDepth = some d → s.sp ≤ d := by
  unfold State.spOk
  cases s.stackDepth <;> simp

theorem inv_iff (s : State) :
    s.inv = true ↔ s.mem.wf = true ∧ s.spOk = true ∧ (∀ v ∈ s.stack, v.toNat ≤ 0x1000) ∧ s.pc.toNat ≤ 0x10FE ∧
      ∀ f, s.FAULT = some f → faultRecordOk f = true := by
  simp [State.inv, and_assoc, Option.all_eq_true]

/-- The tick touches nothing the invariant speaks of. -/
theorem endCycle_inv (s : State) : (endCycle s).inv = s.inv := by
  obtain ⟨-, he⟩ | ⟨f, -, he⟩ := endCycle_cases s <;> rw [he]
  rfl

/-! ## Each part is kept by the execute phase -/

section Exec

variable {i : Instr} {s t : State}

/-- Only legal offsets are stored to, so memory stays canonical (20_memory.md R34; log 7). -/
theorem exec_keeps_mem_wf (hwf : s.mem.wf = true) (h : exec i s = .next t) : t.mem.wf = true := by
  cases i with
  | ldB x =>
    obtain ⟨-, rfl⟩ | ⟨hI, rfl⟩ := exec_ldB_inv h
    · exact unspecifiedMem_wf s _ _ hwf
    · exact Memory.wf_setBytes _ hwf hI
  | ldMemVx x =>
    obtain ⟨-, rfl⟩ | ⟨hI, rfl⟩ := exec_ldMemVx_inv h
    · exact unspecifiedMem_wf s _ _ hwf
    · exact Memory.wf_setBytes _ hwf (by rwa [List.length_map, regsUpTo_length])
  | _ =>
    rw [exec_written h]
    exact hwf

/-- CALL pushes below STACK_DEPTH only, and RET pops (10_state.md R16, R18). -/
theorem exec_keeps_spOk (hsp : s.spOk = true) (h : exec i s = .next t) : t.spOk = true := by
  cases i with
  | call nnn =>
    obtain ⟨-, rfl⟩ | ⟨hroom, rfl⟩ := exec_call_inv h
    · exact hsp
    · rw [spOk_iff] at hsp ⊢
      intro d hd
      have hne : s.sp ≠ d := fun e => hroom (hd.trans (congrArg some e.symm))
      exact Nat.lt_of_le_of_ne (hsp d hd) hne
  | ret =>
    obtain ⟨-, rfl⟩ | ⟨v, st, hst, rfl⟩ := exec_ret_inv h
    · exact hsp
    · rw [spOk_iff] at hsp ⊢
      intro d hd
      have hle : st.length ≤ s.sp := by simp [State.sp, hst]
      exact Nat.le_trans hle (hsp d hd)
  | _ =>
    rw [exec_written h]
    exact hsp

/-- A saved program counter is two past a `pc` that could be fetched at (10_state.md R18; 41_flow.md R83). -/
theorem exec_keeps_stack_bound (hpc : s.pc.toNat ≤ 0xFFE) (hst : ∀ v ∈ s.stack, v.toNat ≤ 0x1000) (h : exec i s = .next t) :
    ∀ v ∈ t.stack, v.toNat ≤ 0x1000 := by
  cases i with
  | call nnn =>
    obtain ⟨-, rfl⟩ | ⟨-, rfl⟩ := exec_call_inv h
    · exact hst
    · refine List.forall_mem_cons.mpr ⟨?_, hst⟩
      bv_omega
  | ret =>
    obtain ⟨-, rfl⟩ | ⟨v, st, hs, rfl⟩ := exec_ret_inv h
    · exact hst
    · exact fun w hw => hst w (hs ▸ List.mem_cons_of_mem v hw)
  | _ =>
    rw [exec_written h]
    exact hst

theorem stackEntry_mem {k : Nat} {v : Word} (h : s.stackEntry k = some v) : v ∈ s.stack :=
  List.mem_reverse.mp (List.mem_of_getElem? h)

/-- The greatest value a cycle commits is the indexed jump's 0xFF + 0xFFF (10_state.md R15). -/
theorem exec_completed_pc_bound (hF : s.FAULT = none) (hpc : s.pc.toNat ≤ 0xFFE) (hst : ∀ v ∈ s.stack, v.toNat ≤ 0x1000)
    (h : exec i s = .next t) (ht : t.FAULT = none) : t.pc.toNat ≤ 0x10FE := by
  have hcommit := onlyRedirectingInstructionsLeaveTheDefaultAdvance i s t hF h ht
  have h2 : (s.pc + 2).toNat ≤ 0x1000 := by bv_omega
  have h4 : (s.pc + 4).toNat ≤ 0x1002 := by bv_omega
  cases i with
  | jp nnn | call nnn =>
    have hn := nnn.isLt
    have he : t.pc.toNat = nnn.toNat := hcommit
    omega
  | jpV0 nnn =>
    have hn := nnn.isLt
    have hv := (s.reg 0).isLt
    have he : t.pc.toNat = (s.reg 0).toNat + nnn.toNat := hcommit
    omega
  | ret => exact Nat.le_trans (hst _ (stackEntry_mem hcommit)) (by decide)
  | seImm _ _ | sneImm _ _ | seReg _ _ | sneReg _ _ | skp _ | sknp _ =>
    obtain he | he : t.pc = s.pc + 4 ∨ t.pc = s.pc + 2 := hcommit
    · rw [he]; omega
    · rw [he]; omega
  | ldVxK x =>
    obtain he | he : t.pc = s.pc ∨ t.pc = s.pc + 2 := hcommit
    · rw [he]; omega
    · rw [he]; omega
  | _ =>
    have he : t.pc = s.pc + 2 := hcommit
    rw [he]
    omega

theorem exec_keeps_inv (hF : s.FAULT = none) (hpc : s.pc.toNat ≤ 0xFFE) (hinv : s.inv = true) (h : exec i s = .next t) :
    t.inv = true := by
  obtain ⟨hwf, hsp, hst, -, -⟩ := (inv_iff s).mp hinv
  have hbounds : t.pc.toNat ≤ 0x10FE ∧ ∀ f, t.FAULT = some f → faultRecordOk f = true := by
    obtain ⟨f, hf, he⟩ | hsame := exec_raises_or_completes h
    · have htpc : t.pc = s.pc := by rw [he]; rfl
      have htF : t.FAULT = some f := by rw [he]; rfl
      exact ⟨by rw [htpc]; omega, fun g hg => Option.some.inj (htF.symm.trans hg) ▸ hf⟩
    · have htF : t.FAULT = none := hsame.trans hF
      exact ⟨exec_completed_pc_bound hF hpc hst h htF, fun g hg => absurd (htF.symm.trans hg) (Option.some_ne_none g).symm⟩
  exact (inv_iff t).mpr ⟨exec_keeps_mem_wf hwf h, exec_keeps_spOk hsp h, exec_keeps_stack_bound hpc hst h, hbounds⟩

end Exec

/-- A fetch that raises leaves the invariant: its record is legal wherever the invariant bounds `pc` (20_memory.md R36). -/
theorem fetchFault_keeps_inv {s : State} (h : s.inv = true) : (raise (.memory (max s.pc.toNat 0x1000) .fetch) s).inv = true := by
  rw [inv_iff] at h ⊢
  obtain ⟨hwf, hsp, hst, hpc, -⟩ := h
  refine ⟨hwf, hsp, hst, hpc, fun f hf => ?_⟩
  obtain rfl := Option.some.inj hf
  exact memoryRecord_ok s.pc .fetch

/-- A DecodeMiss moves `pc` by two from where a word could be fetched (40_cycle.md R74). -/
theorem decodeMiss_keeps_inv {s : State} (h : s.inv = true) (hpc : s.pc.toNat ≤ 0xFFE) : (s.setPc (s.pc + 2)).inv = true := by
  rw [inv_iff] at h ⊢
  obtain ⟨hwf, hsp, hst, -, hF⟩ := h
  exact ⟨hwf, hsp, hst, by rw [setPc_pc]; bv_omega, hF⟩

/-- Settles O13, by the four ways a cycle goes. -/
theorem stepKeepsTheInvariant : Obligations.StepKeepsTheInvariant := by
  intro s t hinv h
  obtain ⟨f, -, he⟩ | ⟨-, -, he⟩ | ⟨-, hpc, -, he⟩ | ⟨i, hF, hpc, -, he⟩ := step_cases s
  · obtain rfl := Host.Outcome.next.inj (he.symm.trans h)
    exact hinv
  · obtain rfl := Host.Outcome.next.inj (he.symm.trans h)
    exact fetchFault_keeps_inv hinv
  · obtain rfl := Host.Outcome.next.inj (he.symm.trans h)
    exact decodeMiss_keeps_inv hinv hpc
  · cases hx : exec i s with
    | next u =>
      rw [he, hx, endOutcome_next] at h
      obtain rfl := Host.Outcome.next.inj h
      rw [endCycle_inv]
      exact exec_keeps_inv hF hpc hinv hx
    | fault r => simp [he, hx, endOutcome] at h
    | refused r => simp [he, hx, endOutcome] at h

/-- Settles O14, by evaluating the invariant on the reset state. -/
theorem resetMeetsTheInvariant : Obligations.ResetMeetsTheInvariant := by
  unfold Obligations.ResetMeetsTheInvariant
  decide

/-- Above the glyph table the reset contents are 0 (20_memory.md R31; the spec's decision D11). -/
theorem resetByte_above_font {a : Nat} (h : 80 ≤ a) : resetByte a = 0 := by
  have hnone : defaultFont[a]? = none := List.getElem?_eq_none h
  rw [resetByte, hnone, Option.getD_none]

/-- Settles O15: the 80 glyph bytes and the scalar registers by evaluation, the rest for every pixel, register and offset. -/
theorem resetValues : Obligations.ResetValues := by
  refine ⟨rfl, Display.pixel_blank, fun r => ?_, rfl, rfl, rfl, rfl, rfl, rfl, by decide, fun a ha => resetByte_above_font ha⟩
  simp [State.reg, State.reset]

end Sys2Proof.Machine
end

section
/-! SUPPORT. The store and the fetch (20_memory.md R30 to R37): what a multi-byte store leaves inside and outside its range, and that the
canonical form of memory is one (log 7). -/

namespace Sys2Proof.Machine

/-! ## The fetch (20_memory.md R33, R36) -/

/-- Big-endian: the byte at the lower offset is the high one (20_memory.md R33). -/
theorem wordOf_toNat (hi lo : Byte) : (wordOf hi lo).toNat = hi.toNat * 256 + lo.toNat := by
  rw [wordOf, BitVec.toNat_append, ← Nat.shiftLeft_add_eq_or_of_lt lo.isLt, Nat.shiftLeft_eq]

/-- Settles O9: a legal fetch reads the two bytes of the word, an illegal one ends the cycle with its record. -/
theorem fetchIsBigEndianAndFaultsPastTheEnd : Obligations.FetchIsBigEndianAndFaultsPastTheEnd := by
  refine ⟨fun s hpc => ⟨_, fetch_legal s hpc, wordOf_toNat _ _⟩, fun s hF hpc => ?_⟩
  have hoffset : (if 0xFFF < s.pc.toNat then s.pc.toNat else 0x1000) = max s.pc.toNat 0x1000 := by
    split <;> omega
  rw [hoffset]
  simp [step, hF, fetch_illegal s hpc, raise]

/-! ## The canonical form is one (log 7) -/

theorem Memory.wfFrom_cons {lo k : Nat} {v : Byte} {m : Memory} :
    Memory.wfFrom lo ((k, v) :: m) = true ↔
      lo ≤ k ∧ k < Config.memSize ∧ v ≠ resetByte k ∧ m.wfFrom (k + 1) = true := by
  simp [Memory.wfFrom, and_assoc]

theorem Memory.get_cons (k : Nat) (v : Byte) (m : Memory) (a : Nat) :
    Memory.get ((k, v) :: m) a = if a = k then v else m.get a := rfl

/-- Below its first offset a canonical memory reads as the reset contents. -/
theorem Memory.get_below {m : Memory} {lo a : Nat} (h : m.wfFrom lo = true) (ha : a < lo) : m.get a = resetByte a := by
  induction m generalizing lo with
  | nil => rfl
  | cons p m ih =>
    obtain ⟨k, v⟩ := p
    obtain ⟨hlo, -, -, hm⟩ := Memory.wfFrom_cons.mp h
    rw [Memory.get_cons, if_neg (by omega)]
    exact ih hm (by omega)

/-- A byte that differs from the reset contents is listed: no memory that begins above it reads the same. -/
theorem Memory.get_ne_of_begins_above {m m' : Memory} {k : Nat} {v : Byte} (hv : v ≠ resetByte k) (hm' : m'.wfFrom (k + 1) = true) :
    ¬ ∀ a, Memory.get ((k, v) :: m) a = m'.get a := by
  intro hget
  have hk : v = resetByte k := by
    rw [← Memory.get_below hm' (Nat.lt_succ_self k), ← hget k, Memory.get_cons, if_pos rfl]
  exact hv hk

theorem Memory.eq_of_get_eq {m m' : Memory} {lo lo' : Nat} (hm : m.wfFrom lo = true) (hm' : m'.wfFrom lo' = true)
    (hget : ∀ a, m.get a = m'.get a) : m = m' := by
  induction m generalizing m' lo lo' with
  | nil =>
    cases m' with
    | nil => rfl
    | cons p' m' =>
      obtain ⟨-, -, hv', -⟩ := Memory.wfFrom_cons.mp hm'
      exact absurd (fun a => (hget a).symm) (Memory.get_ne_of_begins_above hv' (m' := []) rfl)
  | cons p m ih =>
    obtain ⟨k, v⟩ := p
    obtain ⟨-, hk, hv, hrest⟩ := Memory.wfFrom_cons.mp hm
    cases m' with
    | nil => exact absurd hget (Memory.get_ne_of_begins_above hv (m' := []) rfl)
    | cons p' m' =>
      obtain ⟨k', v'⟩ := p'
      obtain ⟨-, hk', hv', hrest'⟩ := Memory.wfFrom_cons.mp hm'
      obtain hlt | rfl | hgt := Nat.lt_trichotomy k k'
      · exact absurd hget (Memory.get_ne_of_begins_above hv (Memory.wfFrom_cons.mpr ⟨hlt, hk', hv', hrest'⟩))
      · have hvv : v = v' := by simpa [Memory.get_cons] using hget k
        have htail : ∀ a, Memory.get m a = Memory.get m' a := fun a => by
          by_cases ha : a = k
          · rw [ha, Memory.get_below hrest (Nat.lt_succ_self k), Memory.get_below hrest' (Nat.lt_succ_self k)]
          · simpa [Memory.get_cons, ha] using hget a
        rw [hvv, ih hrest hrest' htail]
      · exact absurd (fun a => (hget a).symm) (Memory.get_ne_of_begins_above hv' (Memory.wfFrom_cons.mpr ⟨hgt, hk, hv, hrest⟩))

/-- Settles O36, by induction on both lists: the memory that begins at the lower offset lists a byte the other does not read. -/
theorem canonicalMemoriesWithTheSameBytesAreEqual : Obligations.CanonicalMemoriesWithTheSameBytesAreEqual :=
  fun _ _ hm hm' hget => Memory.eq_of_get_eq hm hm' hget

/-! ## A multi-byte store (20_memory.md R37, R39) -/

theorem Memory.get_setBytes_outside (m : Memory) {a a' : Nat} {bs : List Byte} (h : a' < a ∨ a + bs.length ≤ a') :
    (m.setBytes a bs).get a' = m.get a' := by
  rw [Memory.get_setBytes]
  split
  · rw [List.getElem?_eq_none (by omega), Option.getD_none]
  · rfl

theorem Memory.get_setBytes_inside (m : Memory) {a a' j : Nat} {b : Byte} {bs : List Byte} (ha : a + j = a') (hj : bs[j]? = some b) :
    (m.setBytes a bs).get a' = b := by
  rw [← ha, Memory.get_setBytes, if_pos (Nat.le_add_right a j), Nat.add_sub_cancel_left, hj, Option.getD_some]

/-- The bytes LD [I],Vx stores, one for each register up to `x` (43_index_memory.md R109). -/
theorem dumpedBytes_length (s : State) (x : Reg) : ((regsUpTo x).map s.reg).length = x.val + 1 := by
  rw [List.length_map, regsUpTo_length]

theorem dumpedBytes_getElem (s : State) {x k : Reg} (h : k ≤ x) : ((regsUpTo x).map s.reg)[k.val]? = some (s.reg k) := by
  rw [List.getElem?_map, regsUpTo_getElem x k h, Option.map_some]

end Sys2Proof.Machine
end

section
/-! SUPPORT. The data accesses of an instruction (20_memory.md R34, R39): two instructions store, all others only read; and the fault an
execute phase raises is the one on its first access out of range (60_exceptions.md R131, R135). -/

namespace Sys2Proof.Machine

/-- LD B and LD [I],Vx store; the data accesses of any other instruction are reads, bring in what memory holds, and it leaves memory alone
(20_memory.md R39; 10_state.md R25). -/
theorem stores_or_reads (i : Instr) (s : State) :
    (∃ x, i = .ldB x) ∨ (∃ x, i = .ldMemVx x) ∨
    ((∀ p ∈ dataAccesses i s, p.1 = .read) ∧ bytesMoved i s = bytesRead s (dataAccesses i s) ∧
      ∀ t, exec i s = .next t → t.mem = s.mem) := by
  cases i with
  | ldB x => exact .inl ⟨x, rfl⟩
  | ldMemVx x => exact .inr (.inl ⟨x, rfl⟩)
  | drw _ _ _ | ldVxMem _ =>
    exact .inr (.inr ⟨fun p hp => (mem_ascending.mp hp).1, rfl, fun t h => (congrArg State.mem (exec_written h)).trans rfl⟩)
  | _ =>
    exact .inr (.inr ⟨fun p hp => absurd hp List.not_mem_nil, rfl, fun t h => (congrArg State.mem (exec_written h)).trans rfl⟩)

/-- Settles O26: a store leaves the bytes outside its range, whether it completes or raises. -/
theorem onlyTheStoredBytesChange : Obligations.OnlyTheStoredBytesChange := by
  intro i s t a h hout
  obtain ⟨x, rfl⟩ | ⟨x, rfl⟩ | ⟨-, -, hmem⟩ := stores_or_reads i s
  · obtain ⟨-, rfl⟩ | ⟨-, rfl⟩ := exec_ldB_inv h
    · exact unspecifiedMem_get s s.I.toNat 3 a hout
    · exact s.mem.get_setBytes_outside hout
  · obtain ⟨-, rfl⟩ | ⟨-, rfl⟩ := exec_ldMemVx_inv h
    · exact unspecifiedMem_get s s.I.toNat (x.val + 1) a hout
    · exact s.mem.get_setBytes_outside (by rwa [dumpedBytes_length])
  · rw [hmem t h]

/-! ## The first access out of range (60_exceptions.md R131, R135) -/

theorem firstBeyond_legal {a span : Nat} (h : span = 0 ∨ a + span ≤ 0x1000) : firstBeyond a span = none :=
  if_neg (by omega)

theorem firstBeyond_illegal {a span : Nat} (hne : span ≠ 0) (h : 0x1000 < a + span) : firstBeyond a span = some (max a 0x1000) :=
  if_pos (by omega)

/-- Of ascending accesses the first out of range is the one at the first offset above 0xFFF. -/
theorem firstIllegal_ascending (k : AccessKind) (a span : Nat) :
    firstIllegal (ascending k a span) = (firstBeyond a span).map (fun b => (k, b)) := by
  induction span generalizing a with
  | zero => rfl
  | succ n ih =>
    rw [ascending_succ, firstIllegal]
    by_cases ha : a ≤ 0xFFF
    · have hrest : firstBeyond (a + 1) n = firstBeyond a (n + 1) := by
        obtain hn | hn : (n = 0 ∨ a + 1 + n ≤ 0x1000) ∨ (n ≠ 0 ∧ 0x1000 < a + 1 + n) := by omega
        · rw [firstBeyond_legal hn, firstBeyond_legal (by omega)]
        · rw [firstBeyond_illegal hn.1 hn.2, firstBeyond_illegal (by omega) (by omega)]
          congr 1
          omega
      rw [List.find?_cons_of_neg (by simpa using ha), ← hrest]
      exact ih (a + 1)
    · rw [List.find?_cons_of_pos (by simpa using ha), firstBeyond_illegal (by omega) (by omega), Nat.max_eq_left (by omega)]
      rfl

/-- A key instruction raises KeyFault exactly on an index above 15 (60_exceptions.md R133). -/
theorem keyInstruction_FAULT {s t : State} {x : Reg} {next : Word} (hF : s.FAULT = none)
    (h : (16 ≤ (s.reg x).toNat ∧ t = raise (.key (s.reg x)) s) ∨ ((s.reg x).toNat ≤ 15 ∧ t = s.setPc next)) :
    t.FAULT = if (s.reg x).toNat ≥ 16 then some (.key (s.reg x)) else none := by
  obtain ⟨hk, rfl⟩ | ⟨hk, rfl⟩ := h
  · rw [raise_FAULT, if_pos hk]
  · rw [setPc_FAULT, hF, if_neg (by omega)]

/-- The execute phase raises exactly the fault that the conditions of 60_exceptions.md R131 to R133 give. -/
theorem exec_FAULT {i : Instr} {s t : State} (hF : s.FAULT = none) (h : exec i s = .next t) : t.FAULT = raisedFault i s := by
  cases i with
  | ret =>
    obtain ⟨hst, rfl⟩ | ⟨v, st, hst, rfl⟩ := exec_ret_inv h
    · simp [raisedFault, State.sp, hst]
    · simp [raisedFault, State.sp, hst, hF]
  | call nnn =>
    obtain ⟨hd, rfl⟩ | ⟨hd, rfl⟩ := exec_call_inv h
    · simp [raisedFault, hd]
    · simp [raisedFault, hd, hF]
  | skp x => exact keyInstruction_FAULT hF (exec_skp_inv h)
  | sknp x => exact keyInstruction_FAULT hF (exec_sknp_inv h)
  | ldVxK x => exact keyInstruction_FAULT hF (exec_ldVxK_inv h)
  | drw x y n =>
    by_cases hI : n.toNat ≠ 0 ∧ 0x1000 < s.I.toNat + n.toNat
    · obtain rfl := exec_unique h (exec_drw_illegal x y hI.1 hI.2)
      simp [raisedFault, firstBeyond_illegal hI.1 hI.2]
    · have hlegal : n.toNat = 0 ∨ s.I.toNat + n.toNat ≤ 0x1000 := by omega
      obtain ⟨c, hc, -⟩ := exec_drw_legal x y hlegal
      obtain rfl := exec_unique h hc
      simp [raisedFault, firstBeyond_legal hlegal, drawn, hF]
  | ldB x =>
    obtain ⟨hI, rfl⟩ | ⟨hI, rfl⟩ := exec_ldB_inv h
    · simp [raisedFault, firstBeyond_illegal (Nat.succ_ne_zero 2) hI]
    · simp [raisedFault, firstBeyond_legal (.inr hI), hF]
  | ldMemVx x =>
    obtain ⟨hI, rfl⟩ | ⟨hI, rfl⟩ := exec_ldMemVx_inv h
    · simp [raisedFault, firstBeyond_illegal (Nat.succ_ne_zero x.val) hI]
    · simp [raisedFault, firstBeyond_legal (.inr hI), hF]
  | ldVxMem x =>
    obtain ⟨hI, rfl⟩ | ⟨hI, rfl⟩ := exec_ldVxMem_inv h
    · simp [raisedFault, firstBeyond_illegal (Nat.succ_ne_zero x.val) hI]
    · simp [raisedFault, firstBeyond_legal (.inr hI), hF]
  | _ =>
    obtain rfl := Host.Outcome.next.inj h
    exact hF

/-- A record made from the first offset out of range of an ascending transfer is its first illegal access. -/
theorem memoryRecord_iff_firstIllegal (k k' : AccessKind) (base span a : Nat) :
    (firstBeyond base span).map (fun b => Fault.memory b k) = some (.memory a k') ↔
      firstIllegal (ascending k base span) = some (k', a) := by
  rw [firstIllegal_ascending]
  cases firstBeyond base span with
  | none => simp
  | some b => simp [and_comm]

theorem raisedFault_memory_iff (i : Instr) (s : State) (a : Nat) (k : AccessKind) :
    raisedFault i s = some (.memory a k) ↔ firstIllegal (dataAccesses i s) = some (k, a) := by
  cases i with
  | drw x y n => exact memoryRecord_iff_firstIllegal .read k s.I.toNat n.toNat a
  | ldB x => exact memoryRecord_iff_firstIllegal .write k s.I.toNat 3 a
  | ldMemVx x => exact memoryRecord_iff_firstIllegal .write k s.I.toNat (x.val + 1) a
  | ldVxMem x => exact memoryRecord_iff_firstIllegal .read k s.I.toNat (x.val + 1) a
  | _ => simp [raisedFault, dataAccesses, firstIllegal]

/-- Settles O18: the fault raised is the table's, and the table's MemoryFault is the first access out of range. -/
theorem memoryFaultNamesTheFirstIllegalAccess : Obligations.MemoryFaultNamesTheFirstIllegalAccess := by
  intro i s t k a hF h
  rw [exec_FAULT hF h]
  exact raisedFault_memory_iff i s a k

/-! ## What reaches the port (20_memory.md R34, R43) -/

theorem transactions_of_firstIllegal_none {l : List Access} (h : firstIllegal l = none) : transactions l = l :=
  transactions_of_legal fun p hp => by simpa using List.find?_eq_none.mp h p hp

/-- The accesses before the first illegal one are those that reach the port. -/
theorem transactions_append_firstIllegal {l : List Access} {p : Access} (h : firstIllegal l = some p) :
    ∃ rest, l = transactions l ++ p :: rest := by
  obtain ⟨hp, before, rest, rfl, hbefore⟩ := List.find?_eq_some_iff_append.mp h
  have hstop : transactions (before ++ p :: rest) = before := by
    rw [transactions, List.takeWhile_append_of_pos (by simpa using hbefore), List.takeWhile_cons_of_neg (by simpa using hp),
      List.append_nil]
  exact ⟨rest, by rw [hstop]⟩

/-- An instruction that does not fault makes all of its accesses. -/
theorem transactions_of_completed {i : Instr} {s t : State} (hF : s.FAULT = none) (h : exec i s = .next t) (ht : t.FAULT = none) :
    transactions (dataAccesses i s) = dataAccesses i s := by
  apply transactions_of_firstIllegal_none
  cases hfirst : firstIllegal (dataAccesses i s) with
  | none => rfl
  | some p =>
    have hfault := (memoryFaultNamesTheFirstIllegalAccess i s t p.1 p.2 hF h).mpr hfirst
    exact absurd (ht.symm.trans hfault) (Option.some_ne_none _).symm

/-- Settles O21: a MemoryFault names the first illegal access, and the accesses before it are what reaches the port. -/
theorem transactionsStopBeforeTheIllegalAccess : Obligations.TransactionsStopBeforeTheIllegalAccess := by
  intro i s t hF h
  refine ⟨fun p hp => mem_transactions hp, transactions_of_completed hF h, fun a k hfault => ?_⟩
  exact transactions_append_firstIllegal ((memoryFaultNamesTheFirstIllegalAccess i s t k a hF h).mp hfault)

end Sys2Proof.Machine
end

section
/-! SUPPORT. A whole cycle on the memory port (20_memory.md R39, R40, R43; 70_reset_and_hazards.md R159), and its store as
the next fetch sees it (R42). -/

namespace Sys2Proof.Machine

/-! ## A cycle that does not fault (40_cycle.md R70 to R77) -/

/-- The end of a cycle changes neither FAULT nor memory. -/
@[simp] theorem endCycle_FAULT (s : State) : (endCycle s).FAULT = s.FAULT := by
  obtain ⟨-, he⟩ | ⟨f, -, he⟩ := endCycle_cases s <;> rw [he]
  rfl

@[simp] theorem endCycle_mem (s : State) : (endCycle s).mem = s.mem := by
  obtain ⟨-, he⟩ | ⟨f, -, he⟩ := endCycle_cases s <;> rw [he]
  rfl

theorem endOutcome_eq_next {r : Host.Outcome State Fault Refusal} {t : State} (h : endOutcome r = .next t) :
    ∃ u, r = .next u ∧ t = endCycle u := by
  cases r with
  | next u => exact ⟨u, rfl, (Host.Outcome.next.inj h).symm⟩
  | fault f => cases h
  | refused f => cases h

/-- The cycle of an instruction whose execute phase completes is that phase and the tick. -/
theorem step_completed {s u : State} {i : Instr} (hF : s.FAULT = none) (hpc : s.pc.toNat ≤ 0xFFE) (hd : decode s.fetchWord = some i)
    (hx : exec i s = .next u) (hu : u.FAULT = none) : step s = .next (tick u) := by
  simp [step, hF, fetch_legal s hpc, hd, hx, endCycle_running hu]

/-- A cycle that does not fault fetched a word, and on a DecodeMiss left memory alone or completed the instruction's execute phase. -/
theorem step_completed_inv {s t : State} (hF : s.FAULT = none) (h : step s = .next t) (ht : t.FAULT = none) :
    s.pc.toNat ≤ 0xFFE ∧
      ((decode s.fetchWord = none ∧ t.mem = s.mem) ∨
       ∃ i u, decode s.fetchWord = some i ∧ exec i s = .next u ∧ u.FAULT = none ∧ t.mem = u.mem) := by
  obtain ⟨f, hf, -⟩ | ⟨-, -, he⟩ | ⟨-, hpc, hd, he⟩ | ⟨i, -, hpc, hd, he⟩ := step_cases s
  · exact absurd (hF.symm.trans hf) (Option.some_ne_none f).symm
  · obtain rfl := Host.Outcome.next.inj (he.symm.trans h)
    cases ht
  · obtain rfl := Host.Outcome.next.inj (he.symm.trans h)
    exact ⟨hpc, .inl ⟨hd, rfl⟩⟩
  · obtain ⟨u, hx, rfl⟩ := endOutcome_eq_next (he.symm.trans h)
    exact ⟨hpc, .inr ⟨i, u, hd, hx, (endCycle_FAULT u).symm.trans ht, endCycle_mem u⟩⟩

/-! ## Transactions (20_memory.md R43) -/

theorem mem_zipWith_performed {x : Transaction} {l : List Access} {bs : List Byte} (h : x ∈ List.zipWith performed l bs) :
    ∃ p ∈ l, ∃ b, x = performed p b := by
  rw [← List.map_uncurry_zip_eq_zipWith] at h
  obtain ⟨⟨p, b⟩, hpb, rfl⟩ := List.mem_map.mp h
  exact ⟨p, (List.of_mem_zip hpb).1, b, rfl⟩

theorem performed_write {p : Access} (h : p.1 = .write) (b : Byte) : performed p b = .write (BitVec.ofNat 12 p.2) b := by
  simp [performed, h]

theorem performed_not_write {p : Access} (h : p.1 ≠ .write) (b : Byte) : performed p b = .read (BitVec.ofNat 12 p.2) b := by
  obtain ⟨k, a⟩ := p
  cases k with
  | fetch | read => rfl
  | write => exact absurd rfl h

/-- Legal accesses, each with a byte, drive `mem_wr` and `mem_addr` as they are. -/
theorem zipWith_performed_wires {l : List Access} {bs : List Byte} (hlen : bs.length = l.length) (hlegal : ∀ p ∈ l, p.2 ≤ 0xFFF) :
    (List.zipWith performed l bs).map (fun x => (x.memWr, x.memAddr.toNat)) = l.map (fun a => (a.1 == .write, a.2)) := by
  induction l generalizing bs with
  | nil => rfl
  | cons p l ih =>
    obtain ⟨b, bs, rfl⟩ := List.exists_cons_of_length_eq_add_one hlen
    obtain ⟨haddr, hwr, -, -⟩ := performed_spec p b (hlegal p List.mem_cons_self)
    rw [List.zipWith_cons_cons, List.map_cons, List.map_cons, hwr, haddr,
      ih (Nat.succ.inj hlen) fun q hq => hlegal q (List.mem_cons_of_mem p hq)]

/-- Reads leave memory alone. -/
theorem foldl_afterTransaction_reads (m : Memory) {l : List Access} (hl : ∀ p ∈ l, p.1 ≠ .write) (bs : List Byte) :
    (List.zipWith performed l bs).foldl Memory.afterTransaction m = m := by
  induction l generalizing bs with
  | nil => rfl
  | cons p l ih =>
    cases bs with
    | nil => rfl
    | cons b bs =>
      rw [List.zipWith_cons_cons, List.foldl_cons, performed_not_write (hl p List.mem_cons_self)]
      exact ih (fun q hq => hl q (List.mem_cons_of_mem p hq)) bs

/-- A legal read brings in the byte memory holds at `mem_addr`. -/
theorem read_of_performed {s : State} {p : Access} {a : BitVec 12} {b : Byte} (hp : p.2 ≤ 0xFFF)
    (h : .read a b = performed p (s.mem.get p.2)) : b = s.mem.get a.toNat := by
  obtain ⟨haddr, -, -, hdata⟩ := performed_spec p (s.mem.get p.2) hp
  rw [← h] at haddr hdata
  rw [show a.toNat = p.2 from haddr]
  obtain hr | hw := hdata
  · exact Option.some.inj hr
  · cases hw

/-! ## The instruction's transactions -/

theorem ascending_length (k : AccessKind) (a span : Nat) : (ascending k a span).length = span := by
  rw [ascending, List.length_map, List.length_range]

/-- Every access of an instruction moves one byte. -/
theorem bytesMoved_length (i : Instr) (s : State) : (bytesMoved i s).length = (dataAccesses i s).length := by
  obtain ⟨x, rfl⟩ | ⟨x, rfl⟩ | ⟨-, hbytes, -⟩ := stores_or_reads i s
  · exact (ascending_length .write _ 3).symm
  · exact (dumpedBytes_length s x).trans (ascending_length .write _ _).symm
  · rw [hbytes, bytesRead, List.length_map]

theorem read_not_mem_store (base span : Nat) (bs : List Byte) (a : BitVec 12) (b : Byte) :
    .read a b ∉ List.zipWith performed (transactions (ascending .write base span)) bs := by
  intro h
  obtain ⟨p, hp, b', he⟩ := mem_zipWith_performed h
  have hwrite : p.1 = .write := (mem_ascending.mp (List.takeWhile_subset _ hp)).1
  rw [performed_write hwrite] at he
  cases he

/-- A store brings nothing in, and the transactions of an instruction that only reads are its accesses with the bytes of memory. -/
theorem read_of_mem_dataTransactions {i : Instr} {s : State} {a : BitVec 12} {b : Byte} (h : .read a b ∈ dataTransactions i s) :
    b = s.mem.get a.toNat := by
  obtain ⟨x, rfl⟩ | ⟨x, rfl⟩ | ⟨-, hbytes, -⟩ := stores_or_reads i s
  · exact absurd h (read_not_mem_store _ _ _ a b)
  · exact absurd h (read_not_mem_store _ _ _ a b)
  · obtain ⟨rest, hrest⟩ := transactions_prefix (dataAccesses i s)
    rw [dataTransactions, hbytes, congrArg (bytesRead s) hrest, zipWith_performed_bytesRead] at h
    obtain ⟨p, hp, he⟩ := List.mem_map.mp h
    exact read_of_performed (mem_transactions hp) he.symm

/-- Performing the transactions of an instruction that completes gives the memory it leaves (20_memory.md R37, R43). -/
theorem foldl_dataTransactions {i : Instr} {s t : State} (hF : s.FAULT = none) (h : exec i s = .next t) (ht : t.FAULT = none) :
    (dataTransactions i s).foldl Memory.afterTransaction s.mem = t.mem := by
  rw [dataTransactions, transactions_of_completed hF h ht]
  obtain ⟨x, rfl⟩ | ⟨x, rfl⟩ | ⟨hreads, -, hmem⟩ := stores_or_reads i s
  · obtain ⟨-, rfl⟩ | ⟨hI, rfl⟩ := exec_ldB_inv h
    · cases ht
    · exact foldl_writes s.mem s.I.toNat (bcdDigits (s.reg x)) hI
  · obtain ⟨-, rfl⟩ | ⟨hI, rfl⟩ := exec_ldMemVx_inv h
    · cases ht
    · have hlen := dumpedBytes_length s x
      have hwrites := foldl_writes s.mem s.I.toNat ((regsUpTo x).map s.reg) (by rwa [hlen])
      rwa [hlen] at hwrites
  · rw [hmem t h]
    exact foldl_afterTransaction_reads s.mem (fun p hp => by rw [hreads p hp]; decide) _

/-! ## The cycle's transactions -/

theorem fetchAccesses_running {s : State} (hF : s.FAULT = none) : fetchAccesses s = ascending .fetch s.pc.toNat 2 := by
  simp [fetchAccesses, hF]

theorem mem_fetchAccesses {s : State} (hpc : s.pc.toNat ≤ 0xFFE) {p : Access} (hp : p ∈ fetchAccesses s) :
    p.2 ≤ 0xFFF ∧ p.1 ≠ .write := by
  cases hF : s.FAULT with
  | some f => simp [fetchAccesses, hF] at hp
  | none =>
    rw [fetchAccesses_running hF] at hp
    obtain ⟨hk, -, hlt⟩ := mem_ascending.mp hp
    exact ⟨by omega, by rw [hk]; decide⟩

theorem fetchTransactions_legal {s : State} (hpc : s.pc.toNat ≤ 0xFFE) :
    fetchTransactions s = List.zipWith performed (fetchAccesses s) (bytesRead s (fetchAccesses s)) := by
  simp [fetchTransactions, fetch_legal s hpc]

theorem fetchTransactions_illegal {s : State} (hpc : 0xFFE < s.pc.toNat) : fetchTransactions s = [] := by
  simp [fetchTransactions, fetch_illegal s hpc]

theorem read_of_mem_fetchTransactions {s : State} {a : BitVec 12} {b : Byte} (h : .read a b ∈ fetchTransactions s) :
    b = s.mem.get a.toNat := by
  obtain hpc | hpc := Nat.lt_or_ge 0xFFE s.pc.toNat
  · rw [fetchTransactions_illegal hpc] at h
    cases h
  · have hreads := zipWith_performed_bytesRead s (fetchAccesses s) []
    rw [List.append_nil] at hreads
    rw [fetchTransactions_legal hpc, hreads] at h
    obtain ⟨p, hp, he⟩ := List.mem_map.mp h
    exact read_of_performed (mem_fetchAccesses hpc hp).1 he.symm

theorem executed_legal {s : State} (hF : s.FAULT = none) (hpc : s.pc.toNat ≤ 0xFFE) : executed s = decode s.fetchWord := by
  simp [executed, hF, fetch_legal s hpc]

theorem cycleTransactions_decodeMiss {s : State} (hF : s.FAULT = none) (hpc : s.pc.toNat ≤ 0xFFE) (hd : decode s.fetchWord = none) :
    cycleTransactions s = fetchTransactions s := by
  simp [cycleTransactions, executed_legal hF hpc, hd]

theorem cycleTransactions_instruction {s : State} {i : Instr} (hF : s.FAULT = none) (hpc : s.pc.toNat ≤ 0xFFE)
    (hd : decode s.fetchWord = some i) : cycleTransactions s = fetchTransactions s ++ dataTransactions i s := by
  simp [cycleTransactions, executed_legal hF hpc, hd]

/-- Each read of a cycle brings in what memory holds, in a cycle that faults too. -/
theorem read_of_mem_cycleTransactions {s : State} {a : BitVec 12} {b : Byte} (h : .read a b ∈ cycleTransactions s) :
    b = s.mem.get a.toNat := by
  rw [cycleTransactions] at h
  obtain hfetch | hdata := List.mem_append.mp h
  · exact read_of_mem_fetchTransactions hfetch
  · split at hdata
    · exact read_of_mem_dataTransactions hdata
    · cases hdata

theorem fetchTransactions_wires {s : State} (hpc : s.pc.toNat ≤ 0xFFE) :
    (fetchTransactions s).map (fun x => (x.memWr, x.memAddr.toNat)) = (fetchAccesses s).map (fun a => (a.1 == .write, a.2)) := by
  rw [fetchTransactions_legal hpc]
  exact zipWith_performed_wires (List.length_map _) fun p hp => (mem_fetchAccesses hpc hp).1

theorem dataTransactions_wires {i : Instr} {s t : State} (hF : s.FAULT = none) (h : exec i s = .next t) (ht : t.FAULT = none) :
    (dataTransactions i s).map (fun x => (x.memWr, x.memAddr.toNat)) = (dataAccesses i s).map (fun a => (a.1 == .write, a.2)) := by
  have hall := transactions_of_completed hF h ht
  rw [dataTransactions, hall]
  exact zipWith_performed_wires (bytesMoved_length i s) fun p hp => mem_transactions (hall.symm ▸ hp)

theorem foldl_fetchTransactions {s : State} (hpc : s.pc.toNat ≤ 0xFFE) :
    (fetchTransactions s).foldl Memory.afterTransaction s.mem = s.mem := by
  rw [fetchTransactions_legal hpc]
  exact foldl_afterTransaction_reads s.mem (fun p hp => (mem_fetchAccesses hpc hp).2) _

/-- Settles O22: the fetch's transactions and then the instruction's, whose accesses are all in range in a cycle that does not fault. -/
theorem portCarriesTheAccessesOfTheCycle : Obligations.PortCarriesTheAccessesOfTheCycle := by
  refine ⟨fun s a b h => read_of_mem_cycleTransactions h, fun s hF => cycleTransactions_halted hF, fun s t hF h ht => ?_⟩
  obtain ⟨hpc, ⟨hd, hmem⟩ | ⟨i, u, hd, hx, hu, hmem⟩⟩ := step_completed_inv hF h ht
  · rw [cycleTransactions_decodeMiss hF hpc hd, hd, hmem, List.append_nil]
    exact ⟨fetchTransactions_wires hpc, (foldl_fetchTransactions hpc).symm⟩
  · rw [cycleTransactions_instruction hF hpc hd, hd, hmem, List.map_append, List.map_append, fetchTransactions_wires hpc,
      dataTransactions_wires hF hx hu, List.foldl_append, foldl_fetchTransactions hpc, foldl_dataTransactions hF hx hu]
    exact ⟨rfl, rfl⟩

/-! ## The next fetch sees the store (20_memory.md R42) -/

/-- After a cycle that stores `bs` from `I` on, the fetch at `pc + 2` reads the memory so stored to. -/
theorem fetch_after_store {s u : State} {i : Instr} {bs : List Byte} (hF : s.FAULT = none) (hpc : s.pc.toNat ≤ 0xFFC)
    (hd : decode s.fetchWord = some i) (hx : exec i s = .next u) (hu : u.FAULT = none) (hupc : u.pc = s.pc + 2)
    (hmem : u.mem = s.mem.setBytes s.I.toNat bs) :
    ∃ t, step s = .next t ∧ t.pc.toNat = s.pc.toNat + 2 ∧
      fetch t = .ok (wordOf ((s.mem.setBytes s.I.toNat bs).get (s.pc.toNat + 2))
        ((s.mem.setBytes s.I.toNat bs).get (s.pc.toNat + 3))) := by
  have hnext : (tick u).pc.toNat = s.pc.toNat + 2 := by
    rw [tick_pc, hupc]
    bv_omega
  refine ⟨tick u, step_completed hF (by omega) hd hx hu, hnext, ?_⟩
  rw [fetch_legal (tick u) (by omega), hnext, tick_mem, hmem]

/-- The decimal digits as numbers: none is cut to 8 bits (43_index_memory.md R108). -/
theorem bcdDigits_toNat (v : Byte) : (bcdDigits v).map BitVec.toNat = [v.toNat / 100, v.toNat / 10 % 10, v.toNat % 10] := by
  have hv := v.isLt
  simp only [bcdDigits, List.map_cons, List.map_nil, BitVec.toNat_ofNat, Nat.mod_eq_of_lt (show v.toNat / 100 < 2 ^ 8 by omega),
    Nat.mod_eq_of_lt (show v.toNat / 10 % 10 < 2 ^ 8 by omega), Nat.mod_eq_of_lt (show v.toNat % 10 < 2 ^ 8 by omega)]

/-- The byte LD B stores at the `j`-th offset is the `j`-th digit. -/
theorem storedDigit_toNat (m : Memory) {base a d : Nat} (v : Byte) (j : Nat) (ha : base + j = a)
    (hj : [v.toNat / 100, v.toNat / 10 % 10, v.toNat % 10][j]? = some d) :
    ((m.setBytes base (bcdDigits v)).get a).toNat = d := by
  rw [← bcdDigits_toNat, List.getElem?_map, Option.map_eq_some_iff] at hj
  obtain ⟨b, hb, rfl⟩ := hj
  rw [m.get_setBytes_inside ha hb]

/-- Settles O30: each byte of the next word is read from the memory the store left, inside the stored range or outside it. -/
theorem storeIsSeenByTheNextFetch : Obligations.StoreIsSeenByTheNextFetch := by
  constructor
  · intro s x hF hpc hd hI
    obtain ⟨t, hstep, htpc, hfetch⟩ :=
      fetch_after_store (bs := (regsUpTo x).map s.reg) hF hpc hd (exec_ldMemVx_legal (by omega)) hF rfl rfl
    have hlen := dumpedBytes_length s x
    refine ⟨t, _, _, hstep, htpc, hfetch, fun k hk he => ?_, fun k hk he => ?_, fun hout => ?_, fun hout => ?_⟩
    · exact s.mem.get_setBytes_inside he (dumpedBytes_getElem s hk)
    · exact s.mem.get_setBytes_inside he (dumpedBytes_getElem s hk)
    · exact s.mem.get_setBytes_outside (by omega)
    · exact s.mem.get_setBytes_outside (by omega)
  · intro s x hF hpc hd hI
    obtain ⟨t, hstep, htpc, hfetch⟩ :=
      fetch_after_store (bs := bcdDigits (s.reg x)) hF hpc hd (exec_ldB_legal x (by omega)) hF rfl rfl
    have hlen : (bcdDigits (s.reg x)).length = 3 := rfl
    refine ⟨t, _, _, hstep, htpc, hfetch, fun he => ?_, fun he => ?_, fun he => ?_, fun he => ?_, fun hout => ?_, fun hout => ?_⟩
    · exact ⟨storedDigit_toNat s.mem _ 0 (by omega) rfl, storedDigit_toNat s.mem _ 1 (by omega) rfl⟩
    · exact ⟨storedDigit_toNat s.mem _ 1 (by omega) rfl, storedDigit_toNat s.mem _ 2 (by omega) rfl⟩
    · exact storedDigit_toNat s.mem _ 2 (by omega) rfl
    · exact storedDigit_toNat s.mem _ 0 (by omega) rfl
    · exact s.mem.get_setBytes_outside (by omega)
    · exact s.mem.get_setBytes_outside (by omega)

end Sys2Proof.Machine
end

section
/-! SUPPORT. Words, fields and the decoder (30_encoding.md R51, R54, R55, R62): what each field of an encoded word is, which fields a row
of the opcode map fixes, and that encoder, decoder and map agree. -/

namespace Sys2Proof

/-! ## A word is the sum of its fields (R62) -/

theorem append_toNat {m n : Nat} (hi : BitVec m) (lo : BitVec n) : (hi ++ lo).toNat = hi.toNat * 2 ^ n + lo.toNat := by
  rw [BitVec.toNat_append, ← Nat.shiftLeft_add_eq_or_of_lt lo.isLt, Nat.shiftLeft_eq]

theorem encodeA_toNat (op : Nibble) (nnn : Addr) : (encodeA op nnn).toNat = op.toNat * 4096 + nnn.toNat :=
  append_toNat op nnn

theorem encodeXK_toNat (op : Nibble) (x : Reg) (kk : Byte) :
    (encodeXK op x kk).toNat = op.toNat * 4096 + x.val * 256 + kk.toNat := by
  have hx : (BitVec.ofFin (w := 4) x).toNat = x.val := rfl
  rw [encodeXK, append_toNat, append_toNat, hx]
  omega

theorem encodeXYN_toNat (op : Nibble) (x y : Reg) (n : Nibble) :
    (encodeXYN op x y n).toNat = op.toNat * 4096 + x.val * 256 + y.val * 16 + n.toNat := by
  have hx : (BitVec.ofFin (w := 4) x).toNat = x.val := rfl
  have hy : (BitVec.ofFin (w := 4) y).toNat = y.val := rfl
  rw [encodeXYN, append_toNat, append_toNat, append_toNat, hx, hy]
  omega

/-- Settles O2: the sums of the three layouts, and for each instruction the layout it is written in. -/
theorem encodedWordIsTheSumOfItsFields : Obligations.EncodedWordIsTheSumOfItsFields := by
  refine ⟨encodeA_toNat, encodeXK_toNat, encodeXYN_toNat, fun i => ?_, fun x y n => encodeXYN_toNat 0xD x y n,
    by decide, by decide, by decide, by decide⟩
  cases i with
  | cls | ret => rfl
  | sys nnn | jp nnn | call nnn | ldI nnn | jpV0 nnn => exact encodeA_toNat _ nnn
  | seImm x kk | sneImm x kk | ldImm x kk | addImm x kk | rnd x kk => exact (encodeXK_toNat _ x kk).trans (Nat.add_assoc _ _ _)
  | seReg x y | sneReg x y | ldReg x y | or x y | and x y | xor x y | addReg x y | sub x y | shr x y | subn x y | shl x y
  | drw x y n =>
    exact (encodeXYN_toNat _ x y _).trans (by simp only [opcodeRow, BitVec.ofNat_eq_ofNat, BitVec.toNat_ofNat]; omega)
  | skp x | sknp x | ldVxDT x | ldVxK x | ldDTVx x | ldSTVx x | addI x | ldF x | ldB x | ldMemVx x | ldVxMem x =>
    exact (encodeXK_toNat _ x _).trans (by simp only [opcodeRow, BitVec.ofNat_eq_ofNat, BitVec.toNat_ofNat]; omega)

/-! ## The fields of an encoded word (R51) -/

@[simp] theorem fieldOp_encodeA (op : Nibble) (nnn : Addr) : fieldOp (encodeA op nnn) = op :=
  BitVec.extractLsb'_append_eq_left

@[simp] theorem fieldNNN_encodeA (op : Nibble) (nnn : Addr) : fieldNNN (encodeA op nnn) = nnn :=
  BitVec.extractLsb'_append_eq_right

@[simp] theorem fieldOp_encodeXK (op : Nibble) (x : Reg) (kk : Byte) : fieldOp (encodeXK op x kk) = op := by
  rw [fieldOp, encodeXK, BitVec.extractLsb'_append_eq_of_le (by decide), BitVec.extractLsb'_append_eq_left]

@[simp] theorem fieldX_encodeXK (op : Nibble) (x : Reg) (kk : Byte) : fieldX (encodeXK op x kk) = x := by
  rw [fieldX, encodeXK, BitVec.extractLsb'_append_eq_of_le (by decide), BitVec.extractLsb'_append_eq_right]

@[simp] theorem fieldKK_encodeXK (op : Nibble) (x : Reg) (kk : Byte) : fieldKK (encodeXK op x kk) = kk :=
  BitVec.extractLsb'_append_eq_right

@[simp] theorem fieldOp_encodeXYN (op : Nibble) (x y : Reg) (n : Nibble) : fieldOp (encodeXYN op x y n) = op := by
  rw [fieldOp, encodeXYN, BitVec.extractLsb'_append_eq_of_le (by decide), BitVec.extractLsb'_append_eq_of_le (by decide),
    BitVec.extractLsb'_append_eq_left]

@[simp] theorem fieldX_encodeXYN (op : Nibble) (x y : Reg) (n : Nibble) : fieldX (encodeXYN op x y n) = x := by
  rw [fieldX, encodeXYN, BitVec.extractLsb'_append_eq_of_le (by decide), BitVec.extractLsb'_append_eq_of_le (by decide),
    BitVec.extractLsb'_append_eq_right]

@[simp] theorem fieldY_encodeXYN (op : Nibble) (x y : Reg) (n : Nibble) : fieldY (encodeXYN op x y n) = y := by
  rw [fieldY, encodeXYN, BitVec.extractLsb'_append_eq_of_le (by decide), BitVec.extractLsb'_append_eq_right]

@[simp] theorem fieldN_encodeXYN (op : Nibble) (x y : Reg) (n : Nibble) : fieldN (encodeXYN op x y n) = n :=
  BitVec.extractLsb'_append_eq_right

/-! ## A word from its own fields and bytes (R51, 20_memory.md R33) -/

theorem encodeA_fields (w : Word) : encodeA (fieldOp w) (fieldNNN w) = w := by
  rw [encodeA, fieldOp, fieldNNN, BitVec.extractLsb'_append_extractLsb'_eq_extractLsb' (by rfl), BitVec.extractLsb'_eq_self]

theorem encodeXK_fields (w : Word) : encodeXK (fieldOp w) (fieldX w) (fieldKK w) = w := by
  change w.extractLsb' 12 4 ++ w.extractLsb' 8 4 ++ w.extractLsb' 0 8 = w
  rw [BitVec.extractLsb'_append_extractLsb'_eq_extractLsb' (by rfl), BitVec.extractLsb'_append_extractLsb'_eq_extractLsb' (by rfl),
    BitVec.extractLsb'_eq_self]

theorem encodeXYN_fields (w : Word) : encodeXYN (fieldOp w) (fieldX w) (fieldY w) (fieldN w) = w := by
  change w.extractLsb' 12 4 ++ w.extractLsb' 8 4 ++ w.extractLsb' 4 4 ++ w.extractLsb' 0 4 = w
  rw [BitVec.extractLsb'_append_extractLsb'_eq_extractLsb' (by rfl), BitVec.extractLsb'_append_extractLsb'_eq_extractLsb' (by rfl),
    BitVec.extractLsb'_append_extractLsb'_eq_extractLsb' (by rfl), BitVec.extractLsb'_eq_self]

theorem encodeA_of_fieldOp {w : Word} {op : Nibble} (h : fieldOp w = op) : encodeA op (fieldNNN w) = w := by
  rw [← h, encodeA_fields]

theorem encodeXK_of_fieldOp {w : Word} {op : Nibble} (h : fieldOp w = op) : encodeXK op (fieldX w) (fieldKK w) = w := by
  rw [← h, encodeXK_fields]

theorem encodeXYN_of_fieldOp {w : Word} {op : Nibble} (h : fieldOp w = op) :
    encodeXYN op (fieldX w) (fieldY w) (fieldN w) = w := by
  rw [← h, encodeXYN_fields]

@[simp] theorem wordOf_highByte_lowByte (w : Word) : wordOf (highByte w) (lowByte w) = w := by
  rw [wordOf, highByte, lowByte, BitVec.extractLsb'_append_extractLsb'_eq_extractLsb' (by rfl), BitVec.extractLsb'_eq_self]

/-! ## The rows of the opcode map (R55) -/

theorem selects_iff {r : OpcodeRow} {w : Word} : r.selects w = true ↔ w &&& r.mask = r.pattern := beq_iff_eq

/-- The word of an instruction selects the instruction's own row. -/
theorem selects_encode (i : Instr) : (opcodeRow i).selects (encode i) = true := by
  cases i with
  | cls | ret => rfl
  | sys nnn | jp nnn | call nnn | ldI nnn | jpV0 nnn => exact selects_iff.mpr (Laws.TableRow.mask_A _ _)
  | seImm x kk | sneImm x kk | ldImm x kk | addImm x kk | rnd x kk => exact selects_iff.mpr (Laws.TableRow.mask_XK _ _ _)
  | seReg x y | sneReg x y | drw x y n => exact selects_iff.mpr (Laws.TableRow.mask_XYN _ _ _ _)
  | ldReg x y | or x y | and x y | xor x y | addReg x y | sub x y | shr x y | subn x y | shl x y =>
    exact selects_iff.mpr (Laws.TableRow.mask_XY _ _ _ _)
  | skp x | sknp x | ldVxDT x | ldVxK x | ldDTVx x | ldSTVx x | addI x | ldF x | ldB x | ldMemVx x | ldVxMem x =>
    exact selects_iff.mpr (Laws.TableRow.mask_X _ _ _)

/-- A field that a row's mask keeps whole is the same in all words that select the row. -/
theorem extract_eq_of_selects {r : OpcodeRow} {w v : Word} {start len : Nat} (hw : r.selects w = true) (hv : r.selects v = true)
    (hmask : r.mask.extractLsb' start len = BitVec.allOnes len) : w.extractLsb' start len = v.extractLsb' start len := by
  have h := congrArg (BitVec.extractLsb' start len) ((selects_iff.mp hw).trans (selects_iff.mp hv).symm)
  rwa [BitVec.extractLsb'_and, BitVec.extractLsb'_and, hmask, BitVec.and_allOnes, BitVec.and_allOnes] at h

/-- Every row fixes the highest nibble. -/
theorem fieldOp_of_selects {i : Instr} {w : Word} (h : (opcodeRow i).selects w = true) : fieldOp w = fieldOp (encode i) :=
  extract_eq_of_selects h (selects_encode i) (by cases i <;> simp [opcodeRow])

theorem fieldN_of_selects {i : Instr} {w : Word} (h : (opcodeRow i).selects w = true) (hmask : (opcodeRow i).mask = 0xF00F) :
    fieldN w = fieldN (encode i) :=
  extract_eq_of_selects h (selects_encode i) (by rw [hmask]; decide)

theorem fieldKK_of_selects {i : Instr} {w : Word} (h : (opcodeRow i).selects w = true) (hmask : (opcodeRow i).mask = 0xF0FF) :
    fieldKK w = fieldKK (encode i) :=
  extract_eq_of_selects h (selects_encode i) (by rw [hmask]; decide)

/-- Rows 2 and 3 fix the whole word. -/
theorem eq_encode_of_selects {i : Instr} {w : Word} (h : (opcodeRow i).selects w = true) (hmask : (opcodeRow i).mask = 0xFFFF) :
    w = encode i := by
  have hw := extract_eq_of_selects (start := 0) (len := 16) h (selects_encode i) (by rw [hmask]; decide)
  rwa [BitVec.extractLsb'_eq_self, BitVec.extractLsb'_eq_self] at hw

/-! ## A form with the operands of a word -/

/-- The same form with its operands read from `w` (R52). -/
def Instr.withFieldsOf (w : Word) : Instr → Instr
  | .sys _ => .sys (fieldNNN w)
  | .cls => .cls
  | .ret => .ret
  | .jp _ => .jp (fieldNNN w)
  | .call _ => .call (fieldNNN w)
  | .seImm _ _ => .seImm (fieldX w) (fieldKK w)
  | .sneImm _ _ => .sneImm (fieldX w) (fieldKK w)
  | .seReg _ _ => .seReg (fieldX w) (fieldY w)
  | .ldImm _ _ => .ldImm (fieldX w) (fieldKK w)
  | .addImm _ _ => .addImm (fieldX w) (fieldKK w)
  | .ldReg _ _ => .ldReg (fieldX w) (fieldY w)
  | .or _ _ => .or (fieldX w) (fieldY w)
  | .and _ _ => .and (fieldX w) (fieldY w)
  | .xor _ _ => .xor (fieldX w) (fieldY w)
  | .addReg _ _ => .addReg (fieldX w) (fieldY w)
  | .sub _ _ => .sub (fieldX w) (fieldY w)
  | .shr _ _ => .shr (fieldX w) (fieldY w)
  | .subn _ _ => .subn (fieldX w) (fieldY w)
  | .shl _ _ => .shl (fieldX w) (fieldY w)
  | .sneReg _ _ => .sneReg (fieldX w) (fieldY w)
  | .ldI _ => .ldI (fieldNNN w)
  | .jpV0 _ => .jpV0 (fieldNNN w)
  | .rnd _ _ => .rnd (fieldX w) (fieldKK w)
  | .drw _ _ _ => .drw (fieldX w) (fieldY w) (fieldN w)
  | .skp _ => .skp (fieldX w)
  | .sknp _ => .sknp (fieldX w)
  | .ldVxDT _ => .ldVxDT (fieldX w)
  | .ldVxK _ => .ldVxK (fieldX w)
  | .ldDTVx _ => .ldDTVx (fieldX w)
  | .ldSTVx _ => .ldSTVx (fieldX w)
  | .addI _ => .addI (fieldX w)
  | .ldF _ => .ldF (fieldX w)
  | .ldB _ => .ldB (fieldX w)
  | .ldMemVx _ => .ldMemVx (fieldX w)
  | .ldVxMem _ => .ldVxMem (fieldX w)

@[simp] theorem opcodeRow_withFieldsOf (w : Word) (i : Instr) : opcodeRow (i.withFieldsOf w) = opcodeRow i := by
  cases i <;> rfl

@[simp] theorem withFieldsOf_withFieldsOf (w : Word) (i : Instr) : (i.withFieldsOf w).withFieldsOf w = i.withFieldsOf w := by
  cases i <;> rfl

/-- The encoder places every operand where the decoder reads it. -/
@[simp] theorem withFieldsOf_encode (i : Instr) : i.withFieldsOf (encode i) = i := by
  cases i <;> simp [Instr.withFieldsOf, encode]

/-! ## The decoder follows the map (R54, R55) -/

/-- The words that the test on `nnn` shuts out are those of CLS and RET, so a word that passes it is SYS. -/
theorem decodeFamily0_sys {w : Word} (h : (Instr.sys (fieldNNN w)).wellFormed = true) : decodeFamily0 w = .sys (fieldNNN w) := by
  have hcls : w ≠ 0x00E0 := by
    rintro rfl
    exact absurd h (by decide)
  have hret : w ≠ 0x00EE := by
    rintro rfl
    exact absurd h (by decide)
  rw [decodeFamily0, if_neg hcls, if_neg hret]

/-- A word decodes to the form whose row it selects with the operands it holds, where that is an instruction. -/
theorem decode_of_selects {i : Instr} {w : Word} (h : (opcodeRow i).selects w = true)
    (hwf : (i.withFieldsOf w).wellFormed = true) : decode w = some (i.withFieldsOf w) := by
  have hop := fieldOp_of_selects h
  cases i with
  | cls | ret =>
    rw [eq_encode_of_selects h rfl]
    rfl
  | sys nnn => simp [decode, hop, encode, decodeFamily0_sys hwf, Instr.withFieldsOf]
  | ldReg x y | or x y | and x y | xor x y | addReg x y | sub x y | shr x y | subn x y | shl x y =>
    simp [decode, decodeFamily8, hop, fieldN_of_selects h rfl, encode, Instr.withFieldsOf]
  | skp x | sknp x => simp [decode, decodeFamilyE, hop, fieldKK_of_selects h rfl, encode, Instr.withFieldsOf]
  | ldVxDT x | ldVxK x | ldDTVx x | ldSTVx x | addI x | ldF x | ldB x | ldMemVx x | ldVxMem x =>
    simp [decode, decodeFamilyF, hop, fieldKK_of_selects h rfl, encode, Instr.withFieldsOf]
  | jp nnn | call nnn | seImm x kk | sneImm x kk | seReg x y | ldImm x kk | addImm x kk | sneReg x y | ldI nnn | jpV0 nnn | rnd x kk
  | drw x y n => simp [decode, hop, encode, Instr.withFieldsOf]

/-- Settles O3: an instruction's word selects the instruction's own row and holds its operands. -/
theorem decodingAnEncodedInstructionGivesItBack : Obligations.DecodingAnEncodedInstructionGivesItBack := by
  intro i hwf
  have hword : decode (encode i) = some i := by
    have h := decode_of_selects (selects_encode i) (by rwa [withFieldsOf_encode])
    rwa [withFieldsOf_encode] at h
  exact ⟨hword, fun rest => by simp [encodeBytes, decodeBytes, hword]⟩

/-! ## A word that decodes is the word of its instruction (R54, R58) -/

theorem encode_decodeFamily0 {w : Word} (hop : fieldOp w = 0x0) : encode (decodeFamily0 w) = w := by
  unfold decodeFamily0
  split
  next hcls => exact hcls.symm
  split
  next hret => exact hret.symm
  exact encodeA_of_fieldOp hop

/-- In family 8 the encoder writes the low nibble that the decoder matched. -/
theorem encode_of_decodeFamily8 {w : Word} {i : Instr} (h : decodeFamily8 w = some i) :
    encode i = encodeXYN 0x8 (fieldX w) (fieldY w) (fieldN w) := by
  unfold decodeFamily8 at h
  split at h
  case h_10 => cases h
  all_goals
    next hn =>
    obtain rfl := Option.some.inj h
    exact congrArg (encodeXYN 0x8 (fieldX w) (fieldY w)) (BitVec.eq_of_toNat_eq hn.symm)

/-- In families E and F, the low byte. -/
theorem encode_of_decodeFamilyE {w : Word} {i : Instr} (h : decodeFamilyE w = some i) :
    encode i = encodeXK 0xE (fieldX w) (fieldKK w) := by
  unfold decodeFamilyE at h
  repeat' split at h
  all_goals cases h <;> rw [‹fieldKK w = _›] <;> rfl

theorem encode_of_decodeFamilyF {w : Word} {i : Instr} (h : decodeFamilyF w = some i) :
    encode i = encodeXK 0xF (fieldX w) (fieldKK w) := by
  unfold decodeFamilyF at h
  repeat' split at h
  all_goals cases h <;> rw [‹fieldKK w = _›] <;> rfl

theorem nibble_eq_F {op : Nibble} (h : 15 ≤ op.toNat) : op = 0xF := by
  bv_omega

/-- Outside families 5 and 9 the encoder gives the decoded word back. The decoder's arm for nibble `k` is the case numbered `k + 1`. -/
theorem encode_of_decode {w : Word} {i : Instr} (h : decode w = some i) (h5 : fieldOp w ≠ 0x5) (h9 : fieldOp w ≠ 0x9) :
    encode i = w := by
  unfold decode at h
  split at h
  case h_1 hop =>
    obtain rfl := Option.some.inj h
    exact encode_decodeFamily0 (BitVec.eq_of_toNat_eq hop)
  case h_6 hop => exact absurd (BitVec.eq_of_toNat_eq hop) h5
  case h_9 hop => exact (encode_of_decodeFamily8 h).trans (encodeXYN_of_fieldOp (BitVec.eq_of_toNat_eq hop))
  case h_10 hop => exact absurd (BitVec.eq_of_toNat_eq hop) h9
  case h_14 hop =>
    obtain rfl := Option.some.inj h
    exact encodeXYN_of_fieldOp (BitVec.eq_of_toNat_eq hop)
  case h_15 hop => exact (encode_of_decodeFamilyE h).trans (encodeXK_of_fieldOp (BitVec.eq_of_toNat_eq hop))
  case h_16 =>
    simp only [imp_false] at *
    exact (encode_of_decodeFamilyF h).trans (encodeXK_of_fieldOp (nibble_eq_F (by omega)))
  case h_2 hop | h_3 hop | h_11 hop | h_12 hop =>
    obtain rfl := Option.some.inj h
    exact encodeA_of_fieldOp (BitVec.eq_of_toNat_eq hop)
  case h_4 hop | h_5 hop | h_7 hop | h_8 hop | h_13 hop =>
    obtain rfl := Option.some.inj h
    exact encodeXK_of_fieldOp (BitVec.eq_of_toNat_eq hop)

theorem decode_family5 {w : Word} (h : fieldOp w = 0x5) : decode w = some (.seReg (fieldX w) (fieldY w)) := by
  simp [decode, h]

theorem decode_family9 {w : Word} (h : fieldOp w = 0x9) : decode w = some (.sneReg (fieldX w) (fieldY w)) := by
  simp [decode, h]

/-- The canonical word of families 5 and 9 has low nibble 0 (R58). -/
theorem encodeXYN_and_FFF0 (op : Nibble) (x y : Reg) (n : Nibble) : encodeXYN op x y n &&& 0xFFF0 = encodeXYN op x y 0 := by
  change (op ++ BitVec.ofFin (w := 4) x ++ BitVec.ofFin (w := 4) y ++ n) &&&
    (BitVec.allOnes 4 ++ BitVec.allOnes 4 ++ BitVec.allOnes 4 ++ (0 : BitVec 4)) =
    op ++ BitVec.ofFin (w := 4) x ++ BitVec.ofFin (w := 4) y ++ (0 : BitVec 4)
  rw [BitVec.and_append, BitVec.and_append, BitVec.and_append, BitVec.and_allOnes, BitVec.and_allOnes, BitVec.and_allOnes]
  simp

theorem encodeXYN_zero_of_fieldOp {w : Word} {op : Nibble} (h : fieldOp w = op) :
    encodeXYN op (fieldX w) (fieldY w) 0 = w &&& 0xFFF0 := by
  rw [← encodeXYN_and_FFF0 op _ _ (fieldN w), encodeXYN_of_fieldOp h]

theorem wellFormed_or (i : Instr) : i.wellFormed = true ∨ i = .sys 0x0E0 ∨ i = .sys 0x0EE := by
  cases i with
  | sys nnn =>
    by_cases hcls : nnn = 0x0E0
    · exact .inr (.inl (congrArg Instr.sys hcls))
    by_cases hret : nnn = 0x0EE
    · exact .inr (.inr (congrArg Instr.sys hret))
    exact .inl (Bool.and_eq_true_iff.mpr ⟨bne_iff_ne.mpr hcls, bne_iff_ne.mpr hret⟩)
  | _ => exact .inl rfl

/-- The two ill-formed terms have the words of CLS and RET, which do not decode to them. -/
theorem wellFormed_of_decode_encode {i : Instr} (h : decode (encode i) = some i) : i.wellFormed = true := by
  obtain hwf | rfl | rfl := wellFormed_or i
  · exact hwf
  · exact absurd h (by decide)
  · exact absurd h (by decide)

/-- Settles O4: families 5 and 9 lose their low nibble, every other decoded word is its instruction's. -/
theorem encodingADecodedWordGivesTheWordBack : Obligations.EncodingADecodedWordGivesTheWordBack := by
  intro w i h
  by_cases h5 : fieldOp w = 0x5
  · obtain rfl := Option.some.inj ((decode_family5 h5).symm.trans h)
    exact ⟨rfl, (encodeXYN_zero_of_fieldOp h5).trans (if_pos (.inl h5)).symm⟩
  by_cases h9 : fieldOp w = 0x9
  · obtain rfl := Option.some.inj ((decode_family9 h9).symm.trans h)
    exact ⟨rfl, (encodeXYN_zero_of_fieldOp h9).trans (if_pos (.inr h9)).symm⟩
  have hword := encode_of_decode h h5 h9
  exact ⟨wellFormed_of_decode_encode (hword.symm ▸ h), hword.trans (if_neg (not_or.mpr ⟨h5, h9⟩)).symm⟩

/-! ## The words the decoder misses (R56) -/

theorem decodeFamily8_eq_none_iff (w : Word) :
    decodeFamily8 w = none ↔ fieldN w ∈ [0x8, 0x9, 0xA, 0xB, 0xC, 0xD, 0xF] := by
  have hlt := (fieldN w).isLt
  simp only [List.mem_cons, List.not_mem_nil, or_false, ← BitVec.toNat_inj]
  unfold decodeFamily8
  split
  case h_10 =>
    simp only [imp_false] at *
    exact iff_of_true trivial (by simp only [BitVec.ofNat_eq_ofNat, BitVec.toNat_ofNat]; omega)
  all_goals
    next hn => simp [hn]

/-- An arm of the decoder that tests and answers misses where its test fails and the arms after it miss. -/
theorem ite_some_eq_none_iff {c : Prop} [Decidable c] {i : Instr} {o : Option Instr} :
    (if c then some i else o) = none ↔ ¬c ∧ o = none := by
  by_cases h : c
  · rw [if_pos h]
    exact iff_of_false (Option.some_ne_none i) fun hmiss => hmiss.1 h
  · rw [if_neg h]
    exact (and_iff_right h).symm

theorem decodeFamilyE_eq_none_iff (w : Word) : decodeFamilyE w = none ↔ fieldKK w ∉ [0x9E, 0xA1] := by
  simp only [decodeFamilyE, ite_some_eq_none_iff, List.mem_cons, List.not_mem_nil, or_false, not_or, and_true]

theorem decodeFamilyF_eq_none_iff (w : Word) :
    decodeFamilyF w = none ↔ fieldKK w ∉ [0x07, 0x0A, 0x15, 0x18, 0x1E, 0x29, 0x33, 0x55, 0x65] := by
  simp only [decodeFamilyF, ite_some_eq_none_iff, List.mem_cons, List.not_mem_nil, or_false, not_or, and_true]

/-- Outside families 8, E and F every word decodes. -/
theorem decode_ne_none {w : Word} (h8 : fieldOp w ≠ 0x8) (hE : fieldOp w ≠ 0xE) (hF : fieldOp w ≠ 0xF) : decode w ≠ none := by
  unfold decode
  split
  case h_9 hop => exact absurd (BitVec.eq_of_toNat_eq hop) h8
  case h_15 hop => exact absurd (BitVec.eq_of_toNat_eq hop) hE
  case h_16 =>
    simp only [imp_false] at *
    exact absurd (nibble_eq_F (by omega)) hF
  all_goals exact Option.some_ne_none _

/-- Settles O5: only families 8, E and F can miss, each on the sub-fields it has no arm for. -/
theorem decodeMissWordsAreThoseOfTheTable : Obligations.DecodeMissWordsAreThoseOfTheTable := by
  intro w
  rw [← decodeFamily8_eq_none_iff, ← decodeFamilyE_eq_none_iff, ← decodeFamilyF_eq_none_iff]
  by_cases h8 : fieldOp w = 0x8
  · simp [decode, h8]
  by_cases hE : fieldOp w = 0xE
  · simp [decode, hE]
  by_cases hF : fieldOp w = 0xF
  · simp [decode, hF]
  · exact ⟨fun h => absurd h (decode_ne_none h8 hE hF), fun h => by
      obtain ⟨h, -⟩ | ⟨h, -⟩ | ⟨h, -⟩ := h <;> contradiction⟩

/-! ## Every decoded word lies in its row (R55) -/

theorem selects_of_fieldOp {op : Nibble} {w : Word} (h : fieldOp w = op) :
    OpcodeRow.selects ⟨0xF000, op ++ (0 : BitVec 4) ++ (0 : BitVec 4) ++ (0 : BitVec 4)⟩ w = true := by
  rw [selects_iff, ← Laws.TableRow.mask_XYN, encodeXYN_of_fieldOp h]

theorem selects_of_decode {w : Word} {i : Instr} (h : decode w = some i) : (opcodeRow i).selects w = true := by
  by_cases h5 : fieldOp w = 0x5
  · obtain rfl := Option.some.inj ((decode_family5 h5).symm.trans h)
    exact selects_of_fieldOp h5
  by_cases h9 : fieldOp w = 0x9
  · obtain rfl := Option.some.inj ((decode_family9 h9).symm.trans h)
    exact selects_of_fieldOp h9
  rw [← encode_of_decode h h5 h9]
  exact selects_encode i

/-- A word that selects the row of SYS and holds `nnn` is the word of `SYS nnn`. -/
theorem eq_encode_of_withFieldsOf_eq_sys {i : Instr} {w : Word} {nnn : Addr} (h : (opcodeRow i).selects w = true)
    (hi : i.withFieldsOf w = .sys nnn) : w = encode (.sys nnn) := by
  have hrow : (opcodeRow (.sys nnn)).selects w = true := by rwa [← hi, opcodeRow_withFieldsOf]
  have hnnn : Instr.withFieldsOf w (.sys nnn) = .sys nnn := by rw [← hi, withFieldsOf_withFieldsOf]
  rw [← hnnn]
  exact (encodeA_of_fieldOp ((fieldOp_of_selects hrow).trans (fieldOp_encodeA _ _))).symm

/-- Settles O6: a word decodes to its row's form with its own operands, where that is no SYS that spells CLS or RET. -/
theorem wordsSelectTheirRowOfTheMap : Obligations.WordsSelectTheirRowOfTheMap := by
  refine ⟨fun w j h => selects_of_decode h, fun w i h => ?_⟩
  obtain hwf | hcls | hret := wellFormed_or (i.withFieldsOf w)
  · exact ⟨_, decode_of_selects h hwf, .inl (opcodeRow_withFieldsOf w i)⟩
  · obtain rfl := eq_encode_of_withFieldsOf_eq_sys h hcls
    exact ⟨.cls, by decide, .inr (.inl ⟨rfl, rfl⟩)⟩
  · obtain rfl := eq_encode_of_withFieldsOf_eq_sys h hret
    exact ⟨.ret, by decide, .inr (.inr ⟨rfl, rfl⟩)⟩

/-- Settles O1: the decoder evaluates on each of the words. -/
theorem wordsWrittenOutFromTheMapDecode : Obligations.WordsWrittenOutFromTheMapDecode := by
  unfold Obligations.WordsWrittenOutFromTheMapDecode
  decide

end Sys2Proof
end

section
/-! The cycle (40_cycle.md R70 to R77): each of the four ways it goes as an equation on `step`, and what that does to the timers. -/

namespace Sys2Proof.Machine

/-! ## The execute phase ends in a state (40_cycle.md R73) -/

theorem finish_next (r : Except Fault State) (u : State) : ∃ t, finish r u = .next t := by
  obtain ⟨t, -, h⟩ | ⟨f, -, h⟩ := finish_cases r u
  · exact ⟨t, h⟩
  · exact ⟨raise f u, h⟩

/-- An instruction that can raise ends by `finish`, any other in the state it writes. -/
theorem exec_next (i : Instr) (s : State) : ∃ t, exec i s = .next t := by
  cases i with
  | ret | call _ | skp _ | sknp _ | ldVxK _ | drw _ _ _ | ldB _ | ldMemVx _ | ldVxMem _ => exact finish_next _ _
  | _ => exact ⟨_, rfl⟩

/-! ## The cycle, case by case -/

theorem endCycle_eq_ite (s : State) : endCycle s = if s.FAULT = none then tick s else s := by
  obtain ⟨hF, he⟩ | ⟨f, hF, he⟩ := endCycle_cases s <;> simp [he, hF]

theorem step_halted {s : State} (hF : s.FAULT ≠ none) : step s = .next s := by
  obtain ⟨f, hf⟩ := Option.ne_none_iff_exists'.mp hF
  simp [step, hf]

theorem step_decodeMiss {s : State} (hF : s.FAULT = none) (hpc : s.pc.toNat ≤ 0xFFE) (hd : decode s.fetchWord = none) :
    step s = .next (tick (s.setPc (s.pc + 2))) := by
  simp [step, hF, fetch_legal s hpc, hd, endCycle]

theorem step_decoded {s t : State} {i : Instr} (hF : s.FAULT = none) (hpc : s.pc.toNat ≤ 0xFFE) (hd : decode s.fetchWord = some i)
    (hx : exec i s = .next t) : step s = .next (endCycle t) := by
  simp [step, hF, fetch_legal s hpc, hd, hx]

/-- Settles O7: the execute phase ends in a state, and the end of the cycle ticks exactly where that state has no fault. -/
theorem stepRunsTheDecodedInstruction : Obligations.StepRunsTheDecodedInstruction := by
  intro s i hF hpc hd
  obtain ⟨t, hx⟩ := exec_next i s
  exact ⟨t, hx, (step_decoded hF hpc hd hx).trans (congrArg _ (endCycle_eq_ite t))⟩

/-- Settles O8: on SYS as on a DecodeMiss the cycle is the default advance and the tick. -/
theorem sysAndDecodeMissAreNoOperations : Obligations.SysAndDecodeMissAreNoOperations := by
  refine ⟨fun nnn s => rfl, fun s hF hpc hd => ?_⟩
  have hstep : step s = .next (tick (s.setPc (s.pc + 2))) := by
    obtain hmiss | ⟨nnn, hsys⟩ := hd
    · exact step_decodeMiss hF hpc hmiss
    · exact step_completed hF hpc hsys rfl hF
  exact ⟨_, hstep, tickTimer_toNat s.DT, tickTimer_toNat s.ST, rfl⟩

/-! ## The halted block (40_cycle.md R77) -/

theorem run_of_step_self {M : Host.Core} {s : M.State} (h : M.step s = .next s) (k : Nat) : M.run k s = .next s := by
  induction k with
  | zero => rfl
  | succ k ih =>
    rw [Host.Core.run, h]
    exact ih

/-- Settles O10: one cycle of a halted block changes nothing, so no number of them does. -/
theorem haltedBlockNeverMoves : Obligations.HaltedBlockNeverMoves :=
  fun k _ hF => run_of_step_self (step_halted hF) k

/-! ## The timers (40_cycle.md R75, R77) -/

/-- A raise leaves the timers as they were before the cycle (60_exceptions.md R136 (c)). -/
theorem exec_faulted_timers {i : Instr} {s t : State} (hF : s.FAULT = none) (h : exec i s = .next t) (ht : t.FAULT ≠ none) :
    t.DT = s.DT ∧ t.ST = s.ST := by
  obtain ⟨f, -, he⟩ | hsame := exec_raises_or_completes h
  · rw [he]
    exact ⟨rfl, rfl⟩
  · exact absurd (hsame.trans hF) ht

/-- Settles O12: a fetch that raises leaves the timers, a DecodeMiss ticks them, and an instruction that completes ticks what it left
there, which only the two timer loads write. -/
theorem timersTickOncePerCycle : Obligations.TimersTickOncePerCycle := by
  intro s t hF h
  obtain ⟨f, hf, -⟩ | ⟨-, -, he⟩ | ⟨-, -, hd, he⟩ | ⟨i, -, -, hd, he⟩ := step_cases s
  · exact absurd (hf.symm.trans hF) (Option.some_ne_none f)
  · obtain rfl := Host.Outcome.next.inj (he.symm.trans h)
    exact ⟨fun ht => absurd ht (Option.some_ne_none _), fun _ => ⟨rfl, rfl⟩⟩
  · obtain rfl := Host.Outcome.next.inj (he.symm.trans h)
    rw [hd]
    exact ⟨fun _ => ⟨tickTimer_toNat s.DT, tickTimer_toNat s.ST⟩, fun ht => absurd hF ht⟩
  · obtain ⟨u, hx, rfl⟩ := endOutcome_eq_next (he.symm.trans h)
    rw [endCycle_FAULT, hd]
    refine ⟨fun hu => ?_, fun hu => ?_⟩
    · rw [endCycle_running hu, tick_DT, tick_ST, tickTimer_toNat, tickTimer_toNat]
      cases i with
      | ldDTVx x | ldSTVx x =>
        obtain rfl := Host.Outcome.next.inj hx
        exact ⟨rfl, rfl⟩
      | _ =>
        rw [exec_written hx]
        exact ⟨rfl, rfl⟩
    · rw [endCycle_eq_ite, if_neg hu]
      exact exec_faulted_timers hF hx hu

end Sys2Proof.Machine
end

section
/-! Control transfer and skips (41_flow.md R81 to R89): the value each commits to `pc`, what CALL and RET do to the stack, and that nothing
else changes. -/

namespace Sys2Proof.Machine

/-! ## Jumps (41_flow.md R82, R88) -/

theorem exec_jp (nnn : Addr) (s : State) : exec (.jp nnn) s = .next (s.setPc (zextAddr nnn)) := rfl

theorem exec_jpV0 (nnn : Addr) (s : State) :
    exec (.jpV0 nnn) s = .next (s.setPc (zextByte (s.reg 0) + zextAddr nnn)) := rfl

/-- The record of the fetch after a transfer to an address above 0xFFE (20_memory.md R36; the spec's decision D33). -/
theorem fetch_setPc_illegal (s : State) {v : Word} {a : Nat} (hv : v.toNat = a) (ha : 0xFFE < a) :
    fetch (s.setPc v) = .error (.memory (max a 0x1000) .fetch) := by
  subst hv
  exact fetch_illegal (s.setPc v) ha

/-- Settles O38: the sum fits in 16 bits, and the fetch from it faults by `fetch_setPc_illegal`. -/
theorem indexedJumpAddsRegisterZero : Obligations.IndexedJumpAddsRegisterZero := by
  intro nnn s
  have hsum := zextByte_add_zextAddr_toNat (s.reg 0) nnn
  exact ⟨_, exec_jpV0 nnn s, rfl, hsum, fun hover => ⟨_, fetch_setPc_illegal s hsum hover, rfl⟩⟩

/-- Settles O37: the address zero-extended is `pc`; where it was `pc` already only the tick shows. -/
theorem jumpCommitsItsAddress : Obligations.JumpCommitsItsAddress := by
  refine ⟨fun nnn s => ⟨_, exec_jp nnn s, rfl, zextAddr_toNat nnn, fun hnnn => ?_⟩, fun nnn s hF hpc hself hd => ?_⟩
  · subst hnnn
    exact fetch_setPc_illegal s (zextAddr_toNat 0xFFF) (by decide)
  · have hstay : zextAddr nnn = s.pc := BitVec.eq_of_toNat_eq ((zextAddr_toNat nnn).trans hself.symm)
    exact ⟨_, step_completed hF hpc hd (exec_jp nnn s) hF, hstay, tickTimer_toNat s.DT, tickTimer_toNat s.ST, rfl⟩

/-! ## The call stack (10_state.md R16; 41_flow.md R81, R83) -/

/-- A push leaves the entries below it, and so does a pop. -/
theorem stackEntry_below_top {s t : State} {v : Word} {k : Nat} (h : t.stack = v :: s.stack) (hk : k < s.sp) :
    t.stackEntry k = s.stackEntry k := by
  rw [State.stackEntry, State.stackEntry, h, List.reverse_cons]
  exact List.getElem?_append_left (by rwa [List.length_reverse])

theorem sp_eq_zero_iff (s : State) : s.sp = 0 ↔ s.stack = [] := List.length_eq_zero_iff

/-- Settles O39: with room the pushed entry is the new top; on a full stack the raise is all that happens. -/
theorem callPushesTheReturnAddress : Obligations.CallPushesTheReturnAddress := by
  intro nnn s
  refine ⟨fun hroom => ?_, fun hfull => exec_call_full nnn hfull⟩
  exact ⟨_, exec_call_room nnn hroom, rfl, zextAddr_toNat nnn, rfl, stackEntry_top rfl, fun k hk => stackEntry_below_top rfl hk⟩

/-- Settles O40: a stack that is not empty has a top entry, which is committed; on an empty one the raise is all that happens. -/
theorem returnCommitsThePoppedValue : Obligations.ReturnCommitsThePoppedValue := by
  intro s
  refine ⟨fun hne => ?_, fun hempty => exec_ret_empty ((sp_eq_zero_iff s).mp hempty)⟩
  obtain ⟨v, st, hst⟩ := List.exists_cons_of_ne_nil (mt (sp_eq_zero_iff s).mpr hne)
  have hsp : st.length = s.sp - 1 := by rw [State.sp, hst, List.length_cons, Nat.add_sub_cancel]
  exact ⟨_, exec_ret_cons hst, rfl, hsp, stackEntry_top hst, fun k hk => (stackEntry_below_top hst hk).symm⟩

/-- Settles O34: RET pops the entry that CALL pushed. -/
theorem returnComesBackAfterTheCall : Obligations.ReturnComesBackAfterTheCall :=
  fun _ nnn hroom => ⟨_, _, exec_call_room nnn hroom, exec_ret_cons rfl, rfl⟩

/-! ## Skips (41_flow.md R84 to R87) -/

/-- What SE does with its two operands, a register's value and an immediate or another register's. -/
theorem skipIf_beq (s : State) (a b : Byte) :
    s.skipIf (a == b) = { s with pc := (s.skipIf (a == b)).pc } ∧
      (a.toNat = b.toNat → (s.skipIf (a == b)).pc = s.pc + 4) ∧ (a.toNat ≠ b.toNat → (s.skipIf (a == b)).pc = s.pc + 2) := by
  refine ⟨rfl, fun heq => ?_, fun hne => ?_⟩
  · rw [beq_iff_eq.mpr (BitVec.eq_of_toNat_eq heq)]
    rfl
  · rw [beq_eq_false_iff_ne.mpr (mt (congrArg BitVec.toNat) hne)]
    rfl

/-- What SNE does with them. -/
theorem skipIf_bne (s : State) (a b : Byte) :
    s.skipIf (a != b) = { s with pc := (s.skipIf (a != b)).pc } ∧
      (a.toNat ≠ b.toNat → (s.skipIf (a != b)).pc = s.pc + 4) ∧ (a.toNat = b.toNat → (s.skipIf (a != b)).pc = s.pc + 2) := by
  refine ⟨rfl, fun hne => ?_, fun heq => ?_⟩
  · rw [bne_iff_ne.mpr (mt (congrArg BitVec.toNat) hne)]
    rfl
  · rw [bne_eq_false_iff_eq.mpr (BitVec.eq_of_toNat_eq heq)]
    rfl

/-- Settles O42: the skips on two registers' values; families 5 and 9 decode whatever their low nibble. -/
theorem registerSkips : Obligations.RegisterSkips :=
  ⟨fun x y s => ⟨⟨_, rfl, skipIf_beq s (s.reg x) (s.reg y)⟩, ⟨_, rfl, skipIf_bne s (s.reg x) (s.reg y)⟩⟩,
    fun _ h5 => decode_family5 h5, fun _ h9 => decode_family9 h9⟩

/-- Settles O41: the skips on a register's value and the immediate. -/
theorem immediateSkips : Obligations.ImmediateSkips :=
  fun x kk s => ⟨⟨_, rfl, skipIf_beq s (s.reg x) kk⟩, ⟨_, rfl, skipIf_bne s (s.reg x) kk⟩⟩

end Sys2Proof.Machine
end

section
/-! Register loads, the ALU and RND (42_alu.md R90 to R102): what the two shared writes leave in `V[x]` and in VF, and each instruction's
result as a number or bit by bit. -/

namespace Sys2Proof.Machine

/-! ## The result and the flag (42_alu.md R90) -/

theorem writeResult_reg_self (s : State) (x : Reg) (v : Byte) : (writeResult x v s).reg x = v := by
  rw [writeResult_eq, setPc_reg, setReg_reg_self]

/-- Where VF is not the destination, the flag's write leaves the result. -/
theorem writeResultAndFlag_reg_self (s : State) (x : Reg) (v : Byte) (f : Bool) (hx : x ≠ VF) :
    (writeResultAndFlag x v f s).reg x = v := by
  rw [writeResultAndFlag_eq, setPc_reg, setReg_reg_of_ne _ _ _ _ hx, setReg_reg_self]

theorem writeResultAndFlag_VF_of_true (s : State) (x : Reg) (v : Byte) {f : Bool} (hf : f = true) :
    (writeResultAndFlag x v f s).reg VF = 1 := by
  rw [writeResultAndFlag_VF, hf]
  rfl

theorem writeResultAndFlag_VF_of_false (s : State) (x : Reg) (v : Byte) {f : Bool} (hf : f = false) :
    (writeResultAndFlag x v f s).reg VF = 0 := by
  rw [writeResultAndFlag_VF, hf]
  rfl

/-! ## Bitwise results (42_alu.md R94 to R96, R102) -/

/-- Settles O45: each bit of the result is the operation on the operands' bits, and `V[x]` is all that is written. -/
theorem logicIsBitwiseAndWritesNoFlag : Obligations.LogicIsBitwiseAndWritesNoFlag := by
  intro x y s
  refine ⟨⟨_, rfl, rfl, fun r => writeResult_reg_of_ne s x r _, fun j _ => ?_⟩,
    ⟨_, rfl, rfl, fun r => writeResult_reg_of_ne s x r _, fun j _ => ?_⟩,
    ⟨_, rfl, rfl, fun r => writeResult_reg_of_ne s x r _, fun j _ => ?_⟩⟩
  · rw [writeResult_reg_self, BitVec.getLsbD_or]
  · rw [writeResult_reg_self, BitVec.getLsbD_and]
  · rw [writeResult_reg_self, BitVec.getLsbD_xor]

/-- Settles O49: the mask is an AND, of which 0 is the zero and 0xFF the unit. -/
theorem randomByteIsMasked : Obligations.RandomByteIsMasked := by
  intro x kk s
  refine ⟨_, rfl, rfl, fun j _ => ?_, fun hzero => ?_, fun hones => ?_, fun r => writeResult_reg_of_ne s x r _⟩
  · rw [writeResult_reg_self, BitVec.getLsbD_and]
  · rw [writeResult_reg_self, hzero]
    exact BitVec.and_zero
  · rw [writeResult_reg_self, hones]
    exact BitVec.and_allOnes

/-! ## Sums and differences (42_alu.md R92, R97, R98, R100) -/

/-- Settles O46: the carry is decided on the untruncated sum of the operands read before either write. -/
theorem addRegistersSetsTheCarry : Obligations.AddRegistersSetsTheCarry := by
  intro x y s
  refine ⟨_, rfl, rfl, fun hx => ?_, fun hcarry => writeResultAndFlag_VF_of_true s x _ (decide_eq_true hcarry),
    fun hfits => writeResultAndFlag_VF_of_false s x _ (decide_eq_false (Nat.not_lt.mpr hfits)),
    fun r => writeResultAndFlag_reg_of_ne s x r _ _⟩
  rw [writeResultAndFlag_reg_self s x _ _ hx, BitVec.toNat_add]

/-- A byte's difference is the integers' difference modulo 256. -/
theorem sub_toNat_emod (a b : Byte) : ((a - b).toNat : Int) = ((a.toNat : Int) - b.toNat) % 256 := by
  have ha := a.isLt
  have hb := b.isLt
  rw [BitVec.toNat_sub]
  omega

/-- Settles O47: the two differ in the order of the difference only; the flag of both is decided on `V[x] > V[y]`. -/
theorem subtractsShareTheGreaterTest : Obligations.SubtractsShareTheGreaterTest := by
  intro x y s
  have hgreater (v : Byte) (h : (s.reg x).toNat > (s.reg y).toNat) :
      (writeResultAndFlag x v (greaterFlag (s.reg x) (s.reg y)) s).reg VF = 1 :=
    writeResultAndFlag_VF_of_true s x v (decide_eq_true h)
  have hnot (v : Byte) (h : (s.reg x).toNat ≤ (s.reg y).toNat) :
      (writeResultAndFlag x v (greaterFlag (s.reg x) (s.reg y)) s).reg VF = 0 :=
    writeResultAndFlag_VF_of_false s x v (decide_eq_false (Nat.not_lt.mpr h))
  refine ⟨⟨_, rfl, rfl, fun hx => ?_, hgreater _, hnot _, fun r => writeResultAndFlag_reg_of_ne s x r _ _⟩,
    ⟨_, rfl, rfl, fun hx => ?_, hgreater _, hnot _, fun r => writeResultAndFlag_reg_of_ne s x r _ _⟩⟩
  · rw [writeResultAndFlag_reg_self s x _ _ hx, sub_toNat_emod]
  · rw [writeResultAndFlag_reg_self s x _ _ hx, sub_toNat_emod]

/-! ## Shifts (42_alu.md R99, R101) -/

theorem flagByte_getLsbD_toNat (b : Byte) (j : Nat) : (flagByte (b.getLsbD j)).toNat = b.toNat / 2 ^ j % 2 := by
  have hflag (f : Bool) : (flagByte f).toNat = f.toNat := by cases f <;> rfl
  exact (hflag _).trans (Nat.toNat_testBit _ _)

/-- Settles O48: a shift by one is halving or doubling, and the bit shifted out is bit 0 or bit 7 of the operand. -/
theorem shiftsReadTheSecondRegister : Obligations.ShiftsReadTheSecondRegister := by
  intro x y s
  refine ⟨⟨_, rfl, rfl, fun hx => ?_, ?_, fun r => writeResultAndFlag_reg_of_ne s x r _ _⟩,
    ⟨_, rfl, rfl, fun hx => ?_, ?_, fun r => writeResultAndFlag_reg_of_ne s x r _ _⟩⟩
  · rw [writeResultAndFlag_reg_self s x _ _ hx, BitVec.toNat_ushiftRight, Nat.shiftRight_eq_div_pow, Nat.pow_one]
  · calc _ = (flagByte ((s.reg y).getLsbD 0)).toNat := congrArg BitVec.toNat (writeResultAndFlag_VF s x _ _)
      _ = (s.reg y).toNat % 2 := by rw [flagByte_getLsbD_toNat, Nat.pow_zero, Nat.div_one]
  · rw [writeResultAndFlag_reg_self s x _ _ hx, BitVec.toNat_shiftLeft, Nat.shiftLeft_eq, Nat.pow_one, Nat.mul_comm]
  · have hy := (s.reg y).isLt
    calc _ = (flagByte ((s.reg y).getLsbD 7)).toNat := congrArg BitVec.toNat (writeResultAndFlag_VF s x _ _)
      _ = (s.reg y).toNat / 128 := by rw [flagByte_getLsbD_toNat]; omega

/-! ## Loads and the immediate add (42_alu.md R91 to R93) -/

/-- Settles O43: both loads are a write of `V[x]`. -/
theorem loadImmediateAndCopy : Obligations.LoadImmediateAndCopy :=
  ⟨fun x kk s => ⟨_, rfl, rfl, writeResult_reg_self s x kk, fun r => writeResult_reg_of_ne s x r kk⟩,
    fun x y s => ⟨_, rfl, rfl, writeResult_reg_self s x (s.reg y), fun r => writeResult_reg_of_ne s x r (s.reg y)⟩⟩

/-- Settles O44: a byte's sum is modulo 256, and `V[x]` is all that is written. -/
theorem addImmediateWrapsAndWritesNoFlag : Obligations.AddImmediateWrapsAndWritesNoFlag := by
  intro x kk s
  refine ⟨_, rfl, rfl, ?_, fun r => writeResult_reg_of_ne s x r _⟩
  rw [writeResult_reg_self, BitVec.toNat_add]

end Sys2Proof.Machine
end

section
/-! The index register and memory (43_index_memory.md R105 to R110): the value each instruction leaves in `I`, the bytes the two stores
leave and the registers the bulk load leaves. -/

namespace Sys2Proof.Machine

/-! ## The index register (43_index_memory.md R105 to R107) -/

/-- Settles O50: the address zero-extended is `I`. -/
theorem loadIndex : Obligations.LoadIndex :=
  fun nnn _ => ⟨_, rfl, rfl, zextAddr_toNat nnn⟩

/-- Five times a byte fits in 16 bits (43_index_memory.md R107; the spec's decision D26). -/
theorem zextByte_mul_five_toNat (b : Byte) : (zextByte b * 5).toNat = b.toNat * 5 := by
  have hb := b.isLt
  rw [BitVec.toNat_mul, zextByte_toNat]
  exact Nat.mod_eq_of_lt (show b.toNat * 5 < 65536 by omega)

/-- Settles O51: a 16-bit sum is modulo 65536; the product does not wrap. -/
theorem indexAddWrapsAndGlyphLookupTimesFive : Obligations.IndexAddWrapsAndGlyphLookupTimesFive := by
  intro x s
  refine ⟨⟨_, rfl, rfl, ?_⟩, ⟨_, rfl, rfl, zextByte_mul_five_toNat (s.reg x)⟩⟩
  calc (s.I + zextByte (s.reg x)).toNat = (s.I.toNat + (zextByte (s.reg x)).toNat) % 65536 := BitVec.toNat_add _ _
    _ = (s.I.toNat + (s.reg x).toNat) % 65536 := by rw [zextByte_toNat]

/-! ## The decimal digits (43_index_memory.md R108) -/

/-- Settles O52: the stored bytes are the digits of `V[x]`, whose bounds and sum are arithmetic; outside them the store keeps memory. -/
theorem bcdStoreWritesThreeDigits : Obligations.BcdStoreWritesThreeDigits := by
  intro x s hI
  have hx := (s.reg x).isLt
  have hundreds := storedDigit_toNat s.mem (s.reg x) 0 (Nat.add_zero s.I.toNat) rfl
  have tens := storedDigit_toNat s.mem (s.reg x) 1 (Eq.refl (s.I.toNat + 1)) rfl
  have ones := storedDigit_toNat s.mem (s.reg x) 2 (Eq.refl (s.I.toNat + 2)) rfl
  refine ⟨_, _, _, _, exec_ldB_legal x (by omega), rfl, rfl, rfl, rfl, Nat.le_trans (Nat.le_of_eq hundreds) (by omega),
    Nat.le_trans (Nat.le_of_eq tens) (by omega), Nat.le_trans (Nat.le_of_eq ones) (by omega), ?_, fun a ha => s.mem.get_setBytes_outside ha⟩
  rw [setPc_mem, setMem_mem, hundreds, tens, ones]
  omega

/-! ## The bulk transfers (43_index_memory.md R109, R110) -/

/-- A bulk transfer that stays in memory leaves `I` past its last byte without wrapping. -/
theorem add_span_toNat {base : Word} {x : Reg} (h : base.toNat + x.val ≤ 0xFFF) :
    (base + BitVec.ofNat 16 (x.val + 1)).toNat = base.toNat + (x.val + 1) := by
  rw [BitVec.toNat_add, BitVec.toNat_ofNat]
  omega

/-- A completed bulk dump leaves register `k` at `I + k`. -/
theorem get_dumped (s : State) {x k : Reg} (hk : k ≤ x) :
    (s.mem.setBytes s.I.toNat ((regsUpTo x).map s.reg)).get (s.I.toNat + k.val) = s.reg k :=
  s.mem.get_setBytes_inside rfl (dumpedBytes_getElem s hk)

theorem loadedRegs_of_le (s : State) {x r : Reg} (h : r ≤ x) : (loadedRegs s x)[r] = s.mem.get (s.I.toNat + r.val) := by
  rw [loadedRegs_getElem, if_pos h]

theorem loadedRegs_of_gt (s : State) {x r : Reg} (h : x < r) : (loadedRegs s x)[r] = s.reg r := by
  rw [loadedRegs_getElem, if_neg (Fin.not_le.mpr h)]

/-- Settles O53: inside the `x + 1` stored bytes memory holds the registers, outside them it is as before. -/
theorem bulkDumpStoresRegistersAndMovesIndex : Obligations.BulkDumpStoresRegistersAndMovesIndex := by
  intro x s hI
  exact ⟨_, exec_ldMemVx_legal (by omega), rfl, add_span_toNat hI, fun k hk => get_dumped s hk,
    fun a ha => s.mem.get_setBytes_outside (by rwa [dumpedBytes_length])⟩

/-- Settles O54: the registers after the load are `loadedRegs`. -/
theorem bulkLoadReadsRegistersAndMovesIndex : Obligations.BulkLoadReadsRegistersAndMovesIndex := by
  intro x s hI
  exact ⟨_, exec_ldVxMem_legal (by omega), rfl, add_span_toNat hI, fun k hk => loadedRegs_of_le s hk,
    fun r hr => loadedRegs_of_gt s hr⟩

/-- Settles O35: what the load reads at `I + r` is the register the dump stored there. -/
theorem bulkLoadRestoresWhatBulkDumpStored : Obligations.BulkLoadRestoresWhatBulkDumpStored := by
  intro s x V' hI
  refine ⟨_, _, exec_ldMemVx_legal (by omega), exec_ldVxMem_legal (show s.I.toNat + (x.val + 1) ≤ 0x1000 by omega),
    fun r hr => ?_, fun r hr => loadedRegs_of_gt _ hr, rfl⟩
  exact (loadedRegs_of_le _ hr).trans (get_dumped s hr)

end Sys2Proof.Machine
end

section
/-! The display (44_display.md R115 to R117): the blank buffer CLS leaves, the collision flag of a draw said on the sprite's pixels, and
the draw that undoes a draw. -/

namespace Sys2Proof.Machine

/-! ## The clear (44_display.md R115) -/

theorem exec_cls (s : State) : exec .cls s = .next ((s.setDisp Display.blank).setPc (s.pc + 2)) := rfl

/-- A buffer with every pixel 0 is the blank one. -/
theorem Display.eq_blank {d : Display} (h : ∀ px py, d.pixel px py = false) : d = Display.blank :=
  Display.ext_pixel fun px py _ _ => (h px py).trans (Display.pixel_blank px py).symm

/-- Settles O55: CLS leaves the blank buffer, which a clear one already was. -/
theorem clearScreenClearsEveryPixel : Obligations.ClearScreenClearsEveryPixel :=
  fun s => ⟨_, exec_cls s, rfl, Display.pixel_blank, fun hclear => (Display.eq_blank hclear).symm⟩

/-! ## The collision flag (44_display.md R116; R117 items 8, 9) -/

theorem flagByte_eq_one_iff (f : Bool) : flagByte f = 1 ↔ f = true := by
  cases f <;> decide

/-- The pixels a sprite toggles, by the row and the column of the sprite they lie under. -/
theorem spriteBit_iff (s : State) (sx sy n px py : Nat) :
    spriteBit s sx sy n px py = true ↔ ∃ row col, row < n ∧ col < 8 ∧ px = sx + col ∧ py = sy + row ∧
      inBuffer px py = true ∧ (s.mem.get (s.I.toNat + row)).getLsbD (7 - col) = true := by
  simp only [spriteBit, inFootprint, Bool.and_eq_true, decide_eq_true_eq]
  constructor
  · rintro ⟨⟨⟨⟨⟨hx, hx8⟩, hy⟩, hyn⟩, hin⟩, hbit⟩
    exact ⟨py - sy, px - sx, by omega, by omega, by omega, by omega, hin, hbit⟩
  · rintro ⟨row, col, hrow, hcol, rfl, rfl, hin, hbit⟩
    refine ⟨⟨⟨⟨⟨by omega, by omega⟩, by omega⟩, by omega⟩, hin⟩, ?_⟩
    rwa [Nat.add_sub_cancel_left, Nat.add_sub_cancel_left]

/-- The test `drawRows_legal` makes row by row and column by column, said of the pixels the sprite toggles. -/
theorem collision_iff (s : State) (d : Display) (sx sy n : Nat) :
    ((List.range n).any (fun row => (List.range 8).any (fun col =>
      (s.mem.get (s.I.toNat + row)).getLsbD (7 - col) && inBuffer (sx + col) (sy + row) && d.pixel (sx + col) (sy + row)))) = true ↔
      ∃ px py, spriteBit s sx sy n px py = true ∧ d.pixel px py = true := by
  simp only [List.any_eq_true, List.mem_range, Bool.and_eq_true, spriteBit_iff]
  constructor
  · rintro ⟨row, hrow, col, hcol, ⟨hbit, hin⟩, hset⟩
    exact ⟨_, _, ⟨row, col, hrow, hcol, rfl, rfl, hin, hbit⟩, hset⟩
  · rintro ⟨_, _, ⟨row, col, hrow, hcol, rfl, rfl, hin, hbit⟩, hset⟩
    exact ⟨row, hrow, col, hcol, ⟨hbit, hin⟩, hset⟩

/-- A draw whose rows can all be read inverts the sprite's pixels, and its flag says whether one of them was set. -/
theorem exec_drw_completed {s : State} (x y : Reg) {n : Nibble} (h : n = 0 ∨ s.I.toNat + n.toNat ≤ 0x1000) :
    ∃ c, exec (.drw x y n) s = .next (drawn s c) ∧
      (∀ px py, c.disp.pixel px py = (s.disp.pixel px py ^^ spriteBit s (startColumn (s.reg x)) (s.reg y).toNat n.toNat px py)) ∧
      (c.hit = true ↔
        ∃ px py, spriteBit s (startColumn (s.reg x)) (s.reg y).toNat n.toNat px py = true ∧ s.disp.pixel px py = true) := by
  have hn : n.toNat = 0 ∨ s.I.toNat + n.toNat ≤ 0x1000 := h.imp_left (congrArg BitVec.toNat)
  obtain ⟨c, hrows, -, hhit⟩ := drawRows_legal s ⟨s.disp, false⟩ (startColumn (s.reg x)) (s.reg y).toNat (List.range n.toNat)
    List.nodup_range (fun row hrow => by rw [List.mem_range] at hrow; omega)
  obtain ⟨c', hexec, hpix⟩ := exec_drw_legal x y hn
  have hdisp : c'.disp = c.disp := congrArg State.disp (exec_unique hexec (exec_drw_of_rows hrows))
  refine ⟨c, exec_drw_of_rows hrows, hdisp ▸ hpix, ?_⟩
  rw [hhit, Bool.false_or, collision_iff]

/-- Settles O56: pixels and flag are those of `exec_drw_completed`, and of the registers only VF is written. -/
theorem drawInvertsTheSpritePixelsAndReportsCollision : Obligations.DrawInvertsTheSpritePixelsAndReportsCollision := by
  intro x y n s hI
  obtain ⟨c, hexec, hpix, hhit⟩ := exec_drw_completed x y hI
  refine ⟨drawn s c, _, _, hexec, rfl, rfl, rfl, hpix, fun hset => ?_, fun hclear => ?_, drawn_reg_of_ne s c⟩
  · rw [drawn_VF, hhit.mpr hset]
    rfl
  · have hmiss : c.hit = false := Bool.eq_false_iff.mpr (mt hhit.mp fun ⟨px, py, hbit, hset⟩ =>
      Bool.false_ne_true ((hclear px py hbit).symm.trans hset))
    rw [drawn_VF, hmiss]
    rfl

/-! ## A draw undone (44_display.md R116; R117 items 8 to 10) -/

@[simp] theorem drawn_disp (s : State) (c : Canvas) : (drawn s c).disp = c.disp := rfl

/-- A draw moves neither `I` nor memory, so it leaves the sprite. -/
@[simp] theorem spriteBit_drawn (s : State) (c : Canvas) : spriteBit (drawn s c) = spriteBit s := rfl

/-- Settles O33: VF is no coordinate, so the second draw toggles the same pixels. Each pixel is inverted twice, and those the second draw
finds set under the sprite are those the first found clear. -/
theorem drawingTwiceRestoresTheBuffer : Obligations.DrawingTwiceRestoresTheBuffer := by
  intro s x y n hx hy hI
  obtain ⟨c, hfirst, hpix, -⟩ := exec_drw_completed x y hI
  obtain ⟨c', hsecond, hpix', hhit'⟩ := exec_drw_completed (s := drawn s c) x y hI
  rw [drawn_reg_of_ne s c x hx, drawn_reg_of_ne s c y hy, spriteBit_drawn, drawn_disp] at hpix' hhit'
  refine ⟨_, _, hfirst, hsecond, Display.ext_pixel fun px py _ _ => ?_, ?_⟩
  · rw [drawn_disp, hpix', hpix, Bool.xor_assoc, Bool.xor_self, Bool.xor_false]
  · rw [drawn_VF, flagByte_eq_one_iff, hhit']
    refine exists_congr fun px => exists_congr fun py => and_congr_right fun hbit => ?_
    rw [hpix, hbit, Bool.xor_true, Bool.not_eq_true']

end Sys2Proof.Machine
end

section
/-! Keys and timers (45_keypad_timers.md R119 to R125): the key a register's value names and what each level of it does, the timer loads
and stores before and after the tick, and the wait that repeats while its key is up. -/

namespace Sys2Proof.Machine

/-! ## The key operand (45_keypad_timers.md R119; 60_exceptions.md R133) -/

theorem finish_keyIndex_of_le {s : State} {x : Reg} (next : Byte → Word) (h : (s.reg x).toNat ≤ 15) :
    finish ((s.keyIndex x).map (fun k => s.setPc (next k))) s = .next (s.setPc (next (s.reg x))) := by
  rw [State.keyIndex, if_pos h, map_ok, finish_ok]

theorem finish_keyIndex_of_ge {s : State} {x : Reg} (next : Byte → Word) (h : 16 ≤ (s.reg x).toNat) :
    finish ((s.keyIndex x).map (fun k => s.setPc (next k))) s = .next (raise (.key (s.reg x)) s) := by
  rw [State.keyIndex, if_neg (Nat.not_le_of_lt h), map_error, finish_error]

/-! ## The key skips (45_keypad_timers.md R120, R121) -/

theorem skipIf_pc_of_true (s : State) {taken : Bool} (h : taken = true) : (s.skipIf taken).pc = s.pc + 4 := if_pos h

theorem skipIf_pc_of_false (s : State) {taken : Bool} (h : taken = false) : (s.skipIf taken).pc = s.pc + 2 :=
  if_neg (Bool.eq_false_iff.mp h)

/-- Settles O57: SKP is the skip on the level of the key, SKNP the skip on its negation. -/
theorem keySkipsTestTheNamedKey : Obligations.KeySkipsTestTheNamedKey := by
  refine fun x s => ⟨fun hk => ⟨?skp, ?sknp⟩, fun hk => ⟨finish_keyIndex_of_ge _ hk, finish_keyIndex_of_ge _ hk⟩⟩
  case skp => exact ⟨_, finish_keyIndex_of_le _ hk, rfl, skipIf_pc_of_true s, skipIf_pc_of_false s⟩
  case sknp =>
    exact ⟨_, finish_keyIndex_of_le _ hk, rfl, fun hup => skipIf_pc_of_true s (congrArg not hup),
      fun hdown => skipIf_pc_of_false s (congrArg not hdown)⟩

/-! ## The wait for a key (45_keypad_timers.md R122) -/

theorem exec_ldVxK_down {s : State} {x : Reg} (hk : (s.reg x).toNat ≤ 15) (hdown : s.keyPressed (s.reg x) = true) :
    exec (.ldVxK x) s = .next (s.setPc (s.pc + 2)) :=
  (finish_keyIndex_of_le _ hk).trans (by rw [if_pos hdown])

/-- A wait whose key is up changes nothing in the execute phase. -/
theorem exec_ldVxK_up {s : State} {x : Reg} (hk : (s.reg x).toNat ≤ 15) (hup : s.keyPressed (s.reg x) = false) :
    exec (.ldVxK x) s = .next s :=
  (finish_keyIndex_of_le _ hk).trans (by rw [if_neg (Bool.eq_false_iff.mp hup)]; rfl)

/-- Settles O58: the wait commits `pc + 2` with the key down and `pc` with the key up. -/
theorem waitForKeyBlocksOnTheNamedKey : Obligations.WaitForKeyBlocksOnTheNamedKey :=
  fun _ _ => ⟨fun hk => ⟨_, finish_keyIndex_of_le _ hk, rfl, fun hdown => if_pos hdown, fun hup => if_neg (Bool.eq_false_iff.mp hup)⟩,
    fun hk => finish_keyIndex_of_ge _ hk⟩

/-! ## The timer loads and stores (45_keypad_timers.md R123 to R125) -/

/-- Settles O59: each form completes, and the tick of its cycle follows the write. -/
theorem timerLoadsAndStores : Obligations.TimerLoadsAndStores := by
  refine ⟨fun x s => ⟨⟨_, rfl, rfl, setReg_reg_self s x s.DT, fun r => setReg_reg_of_ne s x r s.DT⟩, rfl, rfl⟩,
    ?ldVxDT, ?ldDTVx, ?ldSTVx⟩
  case ldVxDT =>
    exact fun x s hF hpc hd => ⟨_, step_completed hF hpc hd rfl hF, setReg_reg_self s x s.DT, tickTimer_toNat s.DT⟩
  case ldDTVx =>
    exact fun x s hF hpc hd => ⟨_, step_completed hF hpc hd rfl hF, tickTimer_toNat (s.reg x), tickTimer_toNat s.ST⟩
  case ldSTVx =>
    exact fun x s hF hpc hd => ⟨_, step_completed hF hpc hd rfl hF, tickTimer_toNat (s.reg x), tickTimer_toNat s.DT⟩

/-! ## Ticks in a row (40_cycle.md R75) -/

/-- A timer that has run down by `k`, saturating at 0. -/
def timerAfter (k : Nat) (v : Byte) : Byte := BitVec.ofNat 8 (v.toNat - k)

theorem timerAfter_toNat (k : Nat) (v : Byte) : (timerAfter k v).toNat = v.toNat - k :=
  Nat.mod_eq_of_lt (Nat.lt_of_le_of_lt (Nat.sub_le v.toNat k) v.isLt)

theorem timerAfter_zero (v : Byte) : timerAfter 0 v = v := BitVec.eq_of_toNat_eq (timerAfter_toNat 0 v)

theorem timerAfter_tickTimer (k : Nat) (v : Byte) : timerAfter k (tickTimer v) = timerAfter (k + 1) v :=
  BitVec.eq_of_toNat_eq (by rw [timerAfter_toNat, timerAfter_toNat, tickTimer_toNat, Nat.sub_sub, Nat.add_comm])

/-- The state that `k` ticks leave; `afterTicks_zero` and `afterTicks_tick` tie it to `tick`. -/
def State.afterTicks (s : State) (k : Nat) : State :=
  { s with DT := timerAfter k s.DT, ST := timerAfter k s.ST, inputs := s.inputs.drop k, cycle := s.cycle + k }

theorem afterTicks_zero (s : State) : s.afterTicks 0 = s := by
  rw [State.afterTicks, timerAfter_zero, timerAfter_zero, List.drop_zero, Nat.add_zero]

theorem afterTicks_tick (s : State) (k : Nat) : (tick s).afterTicks k = s.afterTicks (k + 1) := by
  rw [State.afterTicks, State.afterTicks, tick_DT, tick_ST, tick_inputs, tick_cycle, timerAfter_tickTimer, timerAfter_tickTimer,
    List.drop_tail, Nat.add_assoc, Nat.add_comm 1 k]
  rfl

/-! ## The blocked wait (45_keypad_timers.md R122; 40_cycle.md R75) -/

/-- The block runs, and its next instruction is a wait on an index that names a key. -/
structure State.AwaitsKey (s : State) (x : Reg) : Prop where
  running : s.FAULT = none
  legalFetch : s.pc.toNat ≤ 0xFFE
  decoded : decode s.fetchWord = some (.ldVxK x)
  namesKey : (s.reg x).toNat ≤ 15

/-- Ticks move nothing the wait depends on but the host's script. -/
theorem State.AwaitsKey.afterTicks {s : State} {x : Reg} (h : s.AwaitsKey x) (k : Nat) : (s.afterTicks k).AwaitsKey x :=
  ⟨h.running, h.legalFetch, h.decoded, h.namesKey⟩

theorem State.AwaitsKey.tick {s : State} {x : Reg} (h : s.AwaitsKey x) : (Machine.tick s).AwaitsKey x :=
  ⟨h.running, h.legalFetch, h.decoded, h.namesKey⟩

/-- While the script lasts, its head is the sample of the cycle (40_cycle.md R78). -/
theorem keyPressed_of_script {s : State} {inp : Input} (h : s.inputs[0]? = some inp) (key : Byte) :
    s.keyPressed key = inp.key.getLsbD key.toNat := by
  obtain ⟨rest, hs⟩ : ∃ rest, s.inputs = inp :: rest := List.head?_eq_some_iff.mp (List.head?_eq_getElem?.trans h)
  rw [State.keyPressed, State.sample, hs]

theorem step_awaitsKey_up {s : State} {x : Reg} (h : s.AwaitsKey x) (hup : s.keyPressed (s.reg x) = false) :
    step s = .next (tick s) :=
  step_completed h.running h.legalFetch h.decoded (exec_ldVxK_up h.namesKey hup) h.running

theorem step_awaitsKey_down {s : State} {x : Reg} (h : s.AwaitsKey x) (hdown : s.keyPressed (s.reg x) = true) :
    step s = .next (tick (s.setPc (s.pc + 2))) :=
  step_completed h.running h.legalFetch h.decoded (exec_ldVxK_down h.namesKey hdown) h.running

theorem run_succ_of_step {M : Host.Core} {s t : M.State} (h : M.step s = .next t) (k : Nat) : M.run (k + 1) s = M.run k t := by
  rw [Host.Core.run, h]

/-- As many cycles as the script keeps the key up are as many ticks. -/
theorem run_awaitsKey_up {k : Nat} {s : State} {x : Reg} (h : s.AwaitsKey x) (hk : k ≤ s.inputs.length)
    (hup : ∀ j inp, j < k → s.inputs[j]? = some inp → inp.key.getLsbD (s.reg x).toNat = false) :
    Host.Core.run Sys2Proof.core k s = .next (s.afterTicks k) := by
  induction k generalizing s with
  | zero => exact congrArg _ (afterTicks_zero s).symm
  | succ k ih =>
    have hhead : s.inputs[0]? = some s.inputs[0] := List.getElem?_eq_getElem _
    have hstep : step s = .next (tick s) :=
      step_awaitsKey_up h ((keyPressed_of_script hhead _).trans (hup 0 _ k.succ_pos hhead))
    have hup' : ∀ j inp, j < k → (tick s).inputs[j]? = some inp → inp.key.getLsbD (s.reg x).toNat = false := by
      intro j inp hj hinp
      rw [tick_inputs, List.getElem?_tail] at hinp
      exact hup (j + 1) inp (Nat.succ_lt_succ hj) hinp
    have hk' : k ≤ (tick s).inputs.length := by
      rw [tick_inputs, List.length_tail]
      exact Nat.le_sub_one_of_lt hk
    rw [← afterTicks_tick]
    exact (run_succ_of_step (M := Sys2Proof.core) hstep k).trans (ih h.tick hk' hup')

/-- Settles O32: the blocked cycles are ticks, after which the state still awaits the key, now at the script's entry `k`. -/
theorem blockedWaitRepeatsUntilTheKeyIsDown : Obligations.BlockedWaitRepeatsUntilTheKeyIsDown := by
  intro k s x hF hpc hd hx hk hup
  have hwait : s.AwaitsKey x := ⟨hF, hpc, hd, hx⟩
  refine ⟨s.afterTicks k, run_awaitsKey_up hwait hk hup, timerAfter_toNat k s.DT, timerAfter_toNat k s.ST, rfl,
    fun inp hinp hdown => ?_⟩
  have hhead : (s.afterTicks k).inputs[0]? = some inp := List.getElem?_drop.trans hinp
  refine ⟨_, step_awaitsKey_down (hwait.afterTicks k) ((keyPressed_of_script hhead _).trans hdown), rfl, rfl, ?_⟩
  calc (tickTimer (timerAfter k s.DT)).toNat = s.DT.toNat - k - 1 := by rw [tickTimer_toNat, timerAfter_toNat]
    _ = s.DT.toNat - (k + 1) := Nat.sub_sub _ _ _

end Sys2Proof.Machine
end

section
/-! Faults (60_exceptions.md R130 to R136): what an execute phase and a whole cycle that raise leave of the state before them, and the record
on the ports. -/

namespace Sys2Proof.Machine

/-! ## Which fault is raised (60_exceptions.md R131 to R133) -/

/-- Settles O17: the execute phase ends in a state, and the fault there is the table's. -/
theorem faultsAreRaisedExactlyWhenTheTableSays : Obligations.FaultsAreRaisedExactlyWhenTheTableSays := by
  intro i s hF
  obtain ⟨t, h⟩ := exec_next i s
  exact ⟨t, h, exec_FAULT hF h⟩

/-! ## What a raise leaves (60_exceptions.md R136) -/

section Raised

variable {s t : State} {f : Fault}

/-- An execute phase that raises `f` is the raise of `f` on a state that keeps `pc`, the stack, the timers and the model's own fields
(R136 (a), (c)). -/
theorem exec_raised {i : Instr} (hF : s.FAULT = none) (h : exec i s = .next t) (ht : t.FAULT = some f) :
    t = raise f { s with V := t.V, I := t.I, disp := t.disp, mem := t.mem } := by
  obtain ⟨g, -, he⟩ | hsame := exec_raises_or_completes h
  · obtain rfl : g = f := Option.some.inj ((congrArg State.FAULT he).symm.trans ht)
    exact he
  · cases ht.symm.trans (hsame.trans hF)

/-- Of `V`, `I`, the display and memory, a raise changes only what the access matrix lets the instruction write (R136 (c), (d);
10_state.md R25). -/
theorem exec_raised_written {i : Instr} (hF : s.FAULT = none) (h : exec i s = .next t) (ht : t.FAULT = some f) :
    t = raise f { s with
      V := (written i s t).V, I := (written i s t).I, disp := (written i s t).disp, mem := (written i s t).mem } := by
  rw [← exec_written h]
  exact exec_raised hF h ht

/-- A cycle that faults, in its fetch or in its execute phase, does not tick: `exec_raised` for the whole cycle (R136 (a), (b)). -/
theorem step_raised (hF : s.FAULT = none) (h : step s = .next t) (ht : t.FAULT = some f) :
    t = raise f { s with V := t.V, I := t.I, disp := t.disp, mem := t.mem } := by
  obtain ⟨g, hg, -⟩ | ⟨-, -, he⟩ | ⟨-, -, -, he⟩ | ⟨i, -, -, -, he⟩ := step_cases s
  · cases hF.symm.trans hg
  · obtain rfl := Host.Outcome.next.inj (he.symm.trans h)
    obtain rfl := Option.some.inj ht
    rfl
  · obtain rfl := Host.Outcome.next.inj (he.symm.trans h)
    cases hF.symm.trans ht
  · obtain ⟨u, hx, rfl⟩ := endOutcome_eq_next (he.symm.trans h)
    obtain ⟨hu, -⟩ | ⟨g, -, hend⟩ := endCycle_cases u
    · cases ((endCycle_FAULT u).trans hu).symm.trans ht
    · rw [hend] at ht ⊢
      exact exec_raised hF hx ht

end Raised

/-- Settles O19: the fields a faulting cycle keeps, by `step_raised`; the state it leaves is halted. -/
theorem faultIsPreciseAndFinal : Obligations.FaultIsPreciseAndFinal := by
  intro s t f hF h ht
  rw [step_raised hF h ht]
  exact ⟨rfl, rfl, rfl, rfl, rfl, fun k => haltedBlockNeverMoves k _ (Option.some_ne_none f)⟩

/-- Settles O20: the nine instructions that can raise leave what `exec_raised_written` says, and within the pieces they write the frames of
memory, registers and display; for any other the table has no fault. -/
theorem faultLeavesTheRestUnchanged : Obligations.FaultLeavesTheRestUnchanged := by
  intro i s t f hF h ht
  have he := exec_raised_written hF h ht
  cases i with
  | call _ | ret | skp _ | sknp _ | ldVxK _ => exact he
  | ldB x => exact ⟨he, fun a hout => onlyTheStoredBytesChange (.ldB x) s t a h hout⟩
  | ldMemVx x => exact ⟨he, fun a hout => onlyTheStoredBytesChange (.ldMemVx x) s t a h hout⟩
  | ldVxMem x =>
    exact ⟨he, fun r hr => onlyTheNamedGeneralRegistersChange _ s t r h (decide_eq_false (Fin.not_le.mpr hr))⟩
  | drw x y n =>
    exact ⟨he, fun r hr => onlyTheNamedGeneralRegistersChange _ s t r h (beq_false_of_ne hr),
      (onlyClsAndDrwChangeTheDisplay _ s t h).2 x y n rfl⟩
  | _ => cases (exec_FAULT hF h).symm.trans ht

/-! ## The record on the ports (60_exceptions.md R130; 70_reset_and_hazards.md R159) -/

section Ports

variable {s : State}

theorem halted_iff (s : State) : halted s = true ↔ s.FAULT ≠ none := Option.isSome_iff_ne_none

theorem faultCode_of_none (h : s.FAULT = none) : faultCode s = 0 := by
  rw [faultCode, h]

theorem faultCode_of_some {f : Fault} (h : s.FAULT = some f) : faultCode s = faultRecordCode f := by
  rw [faultCode, h]

theorem faultInfo_of_none (h : s.FAULT = none) : faultInfo s = none := by
  rw [faultInfo, h]

theorem faultInfo_stackOverflow (h : s.FAULT = some .stackOverflow) : faultInfo s = none := by
  rw [faultInfo, h]

theorem faultInfo_stackUnderflow (h : s.FAULT = some .stackUnderflow) : faultInfo s = none := by
  rw [faultInfo, h]

/-- The offset of a legal record is at most 0x1000E, so the 17 bits of the port hold it whole. -/
theorem faultInfo_memory {a : Nat} {k : AccessKind} (h : s.FAULT = some (.memory a k)) (hok : faultRecordOk (.memory a k) = true) :
    ∃ v, faultInfo s = some v ∧ v.toNat = a := by
  have hle : 0xFFF < a ∧ a ≤ 0x1000E := by simpa [faultRecordOk] using hok
  exact ⟨BitVec.ofNat 17 a, by rw [faultInfo, h], Nat.mod_eq_of_lt (by omega)⟩

theorem faultInfo_key {k : Byte} (h : s.FAULT = some (.key k)) : ∃ v, faultInfo s = some v ∧ v.toNat = k.toNat :=
  ⟨k.setWidth 17, by rw [faultInfo, h], BitVec.toNat_setWidth_of_le (by decide)⟩

end Ports

/-- Settles O23, record by record; the invariant bounds a MemoryFault's offset. -/
theorem portsShowTheFaultRecord : Obligations.PortsShowTheFaultRecord := by
  intro s hinv
  obtain ⟨-, -, -, -, hrecord⟩ := (inv_iff s).mp hinv
  exact ⟨halted_iff s,
    fun h => ⟨faultCode_of_none h, faultInfo_of_none h⟩,
    fun a k h => ⟨faultCode_of_some h, faultInfo_memory h (hrecord _ h)⟩,
    fun h => ⟨faultCode_of_some h, faultInfo_stackOverflow h⟩,
    fun h => ⟨faultCode_of_some h, faultInfo_stackUnderflow h⟩,
    fun k h => ⟨faultCode_of_some h, faultInfo_key h⟩⟩

end Sys2Proof.Machine
end

section
/-! Reset release and the cycle from every state (70_reset_and_hazards.md R150, R152, R162): what the loader places, and that each cycle
answers a next state. -/

namespace Sys2Proof.Machine

/-! ## The cycle is total (70_reset_and_hazards.md R162) -/

/-- Settles O11: three of the four ways a cycle goes name their state, and an instruction's execute phase ends in one. -/
theorem everyCycleAnswersANextState : Obligations.EveryCycleAnswersANextState := by
  intro s
  obtain ⟨-, -, he⟩ | ⟨-, -, he⟩ | ⟨-, -, -, he⟩ | ⟨i, -, -, -, he⟩ := step_cases s
  · exact ⟨_, he⟩
  · exact ⟨_, he⟩
  · exact ⟨_, he⟩
  · obtain ⟨t, hx⟩ := exec_next i s
    exact ⟨endCycle t, by rw [he, hx, endOutcome_next]⟩

/-! ## The memory the loader leaves (20_memory.md R31; 70_reset_and_hazards.md R150) -/

/-- The memory at reset release: the glyph table at 0 and the program image at 0x200. -/
def loadedMemory (font image : List Byte) : Memory := (Memory.setBytes [] 0 font).setBytes 0x200 image

section Loaded

variable {font image : List Byte}

theorem loadedMemory_wf (hfont : font.length = 80) (himage : image.length ≤ 3584) : (loadedMemory font image).wf = true :=
  have hglyphs : 0 + font.length ≤ 0x1000 := by omega
  have hprogram : 0x200 + image.length ≤ 0x1000 := by omega
  Memory.wf_setBytes image (Memory.wf_setBytes font Memory.wf_nil hglyphs) hprogram

/-- The image begins above the glyph table, so loading it overwrites no glyph. -/
theorem loadedMemory_get_glyph (hfont : font.length = 80) {a : Nat} (ha : a < 80) :
    font[a]? = some ((loadedMemory font image).get a) := by
  have hglyph : font[a]? = some font[a] := List.getElem?_eq_getElem (by omega)
  rw [loadedMemory, Memory.get_setBytes_outside _ (by omega), Memory.get_setBytes_inside _ (Nat.zero_add a) hglyph, hglyph]

theorem loadedMemory_get_image {j : Nat} (hj : j < image.length) : image[j]? = some ((loadedMemory font image).get (0x200 + j)) := by
  have hbyte : image[j]? = some image[j] := List.getElem?_eq_getElem hj
  rw [loadedMemory, Memory.get_setBytes_inside _ rfl hbyte, hbyte]

/-- A byte neither store reaches keeps its reset contents (the spec's decision D11). -/
theorem loadedMemory_get_elsewhere (hfont : font.length = 80) {a : Nat} (habove : 80 ≤ a)
    (hout : a < 0x200 ∨ 0x200 + image.length ≤ a) : (loadedMemory font image).get a = 0 := by
  rw [loadedMemory, Memory.get_setBytes_outside _ hout, Memory.get_setBytes_outside _ (by omega)]
  exact resetByte_above_font habove

end Loaded

/-! ## The loader (70_reset_and_hazards.md R152; the spec's decision D23) -/

theorem boot_eq_none_iff (font image : List Byte) (depth : Option Nat) :
    boot font image depth = none ↔ font.length ≠ 80 ∨ 3584 < image.length := by
  rw [boot, ite_eq_right_iff]
  simp only [Config.progMax, reduceCtorEq, imp_false, Decidable.not_and_iff_not_or_not, Nat.not_le, ne_eq]

/-- What the loader accepts, and the state it then starts from: at reset but for memory and the stack's depth. -/
theorem boot_eq_some {font image : List Byte} {depth : Option Nat} {s : State} (h : boot font image depth = some s) :
    font.length = 80 ∧ image.length ≤ 3584 ∧ s = { State.reset with mem := loadedMemory font image, stackDepth := depth } := by
  obtain ⟨⟨hfont, himage⟩, hs⟩ := Option.ite_some_none_eq_some.mp h
  exact ⟨hfont, himage, hs.symm⟩

/-- The reset state meets the invariant with any canonical memory, and its empty stack with any depth. -/
theorem reset_with_inv {m : Memory} (hm : m.wf = true) (depth : Option Nat) :
    ({ State.reset with mem := m, stackDepth := depth } : State).inv = true := by
  obtain ⟨-, -, hstack, hpc, hrecord⟩ := (inv_iff State.reset).mp resetMeetsTheInvariant
  exact (inv_iff _).mpr ⟨hm, (spOk_iff _).mpr fun d _ => Nat.zero_le d, hstack, hpc, hrecord⟩

/-- Settles O16, from the refusal and from the memory of the state the loader starts. -/
theorem bootPlacesGlyphsAndImage : Obligations.BootPlacesGlyphsAndImage := by
  intro font image depth
  refine ⟨boot_eq_none_iff font image depth, fun s h => ?_⟩
  obtain ⟨hfont, himage, rfl⟩ := boot_eq_some h
  exact ⟨reset_with_inv (loadedMemory_wf hfont himage) depth, rfl, rfl,
    fun _ ha => loadedMemory_get_glyph hfont ha,
    fun _ hj => loadedMemory_get_image hj,
    fun _ habove hout => loadedMemory_get_elsewhere hfont habove hout⟩

end Sys2Proof.Machine
end
